-- ==== Sys2Proof/Word.lean ====
section
/-!
DEFINITION. The byte and the index types of the framebuffer.
The constants are those of `00_scope.md` R5: `H = 7` rows, `W = 120` columns, `STRIDE = 15` bytes a row, `NBUF = 2`
buffers, `BUFBYTES = 105`, `FBBYTES = 210`, `NGLYPH = 64`.
-/

namespace Sys2Proof

/-- A byte; bit 7 is its most significant bit (R8). -/
abbrev Byte := BitVec 8

/-- A buffer number, `NBUF = 2` (R5). -/
abbrev BufIx := Fin 2

/-- A row number, `H = 7` (R5). -/
abbrev RowIx := Fin 7

/-- The index of a byte in a row, `STRIDE = 15` (R5). -/
abbrev ByteIx := Fin 15

/-- A column number, `W = 120` (R5). -/
abbrev ColIx := Fin 120

end Sys2Proof
end

