-- ==== Sys2Proof/Config.lean ====
section
/-!
DEFINITION. The open parameters of the block (`00_scope.md` R6), which the spec calls arguments of the model, and the
one free value. `Params` is plain data that `State` carries unchanged, so that a claim about every state is a claim for
every value of every parameter; `Config.params` is what `State.reset` carries (log entry 4).
-/

namespace Sys2Proof

/-- The answer to a command (`30_encoding.md` R89): `OK` is 1, `REJECT` is 0. -/
inductive Status where
  | ok
  | reject
deriving DecidableEq, Repr, Inhabited

/-- The one bit that stands for a status (R89). -/
def Status.bit : Status → Bool
  | .ok => true
  | .reject => false

/-- One entry of the glyph table (`10_state.md` R29): seven bitmap bytes, declared width 0 to 8, declared height 0 to 7,
advance 0 to 255. -/
structure Glyph where
  bm  : Vector Byte 7
  w   : Fin 9
  h   : Fin 8
  adv : Byte
deriving DecidableEq, Repr, Inhabited

/-- The metrics of entry 0, the space, whose bitmap is all zero (R29) and so is not stored. -/
structure SpaceMetrics where
  w   : Fin 9
  h   : Fin 8
  adv : Byte
deriving DecidableEq, Repr, Inhabited

/-- The glyph ROM `GLYPH` (R29): the space and the 63 entries of the codes 33 to 95. -/
structure GlyphTable where
  space  : SpaceMetrics
  others : Vector Glyph 63
deriving DecidableEq, Repr, Inhabited

/-- The map from command codes to verbs, which a model should take as a configuration value (`30_encoding.md` R82). -/
structure VerbMap where
  setRow      : Byte
  showBuffer  : Byte
  clearBuffer : Byte
  drawText    : Byte
  scrollLeft  : Byte
  scrollRight : Byte
deriving DecidableEq, Repr, Inhabited

/-- The codes in the order of the table of `30_encoding.md` R82. -/
def VerbMap.table : VerbMap :=
  { setRow := 0x00, showBuffer := 0x01, clearBuffer := 0x02, drawText := 0x03, scrollLeft := 0x04, scrollRight := 0x05 }

/-- The six codes of a map, in the table's order. -/
def VerbMap.codes (m : VerbMap) : List Byte :=
  [m.setRow, m.showBuffer, m.clearBuffer, m.drawText, m.scrollLeft, m.scrollRight]

/-- A map in which no two verbs share a code: each code selects at most one verb. -/
abbrev VerbMap.distinct (m : VerbMap) : Prop := m.codes.Nodup

/-- The open parameters of `00_scope.md` R6 and the code-to-verb map of R82. -/
structure Params where
  /-- `GLYPH`. -/
  glyph          : GlyphTable
  /-- `TICK_PERIOD`, in any unit of time; no rule reads it (R262). -/
  tickPeriod     : Nat
  /-- `SLOT_BUSY_STATUS`: the answer to a scroll request that finds the slot busy (`60_exceptions.md` R224). -/
  slotBusyStatus : Status
  /-- `CMD_PREEMPTIBLE`: whether a `TICK` may fall inside a command (`20_memory.md` R64). -/
  cmdPreemptible : Bool
  /-- `ROWSEL_ACTIVE`: the electrical level of an asserted select line; no rule reads it. -/
  rowselActive   : Bool
  /-- `ROW0_IS_TOP`: the physical orientation of row 0; no rule reads it. -/
  row0IsTop      : Bool
  /-- The code-to-verb map. -/
  verbMap        : VerbMap
deriving DecidableEq, Repr, Inhabited

/-- The device's glyph table: no source gives it (`91_not_in_source.md` N1), so nothing can evaluate it. -/
opaque Config.glyph : GlyphTable

/-- The device's tick period: open (R6). -/
opaque Config.tickPeriod : Nat

/-- The level of an asserted select line: open (R6). -/
opaque Config.rowselActive : Bool

/-- The orientation of row 0: open (R6). -/
opaque Config.row0IsTop : Bool

/-- FREE VALUE. What `getpix` reads where the byte index is outside its bitmap: the spec makes the index's being inside a
precondition (`40_framebuffer_render.md` R110, R123), and no blit and no verb reads such a byte (log entry 11). -/
opaque Config.outsideSource : Nat → Byte

/-- The parameters at reset: the spec's defaults where R6 and R82 state one, the open constants elsewhere. -/
def Config.params : Params :=
  { glyph := Config.glyph
    tickPeriod := Config.tickPeriod
    slotBusyStatus := .ok
    cmdPreemptible := true
    rowselActive := Config.rowselActive
    row0IsTop := Config.row0IsTop
    verbMap := VerbMap.table }

end Sys2Proof
end

