-- ==== Sys2Proof/Syntax.lean ====
section
/-!
DEFINITION. The command set: one constructor per row of `spec/opcode_table.json`, each with what its record carries
beside the verb (`30_encoding.md` R80): `BUF` and the payload bytes. `LEN` is the number of payload bytes (log entry 6).
The checks that reject a record are part of the verb's meaning, as `43_dispatcher.md` R192 to R197 write them.
-/

namespace Sys2Proof

/-- The six verbs, in the order of `30_encoding.md` R82. -/
inductive Verb where
  | setRow
  | showBuffer
  | clearBuffer
  | drawText
  | scrollLeft
  | scrollRight
deriving DecidableEq, Repr

/-- A command record (`30_encoding.md` R80). -/
structure Record where
  verb    : Byte
  buf     : Byte
  payload : List Byte
deriving DecidableEq, Repr

/-- `LEN`, "the number of payload bytes" (R80). -/
def Record.len (r : Record) : Nat := r.payload.length

/-- A command whose verb is known, before its operands are checked. -/
inductive Instr where
  /-- set-row (R192). -/
  | setRow      (buf : Byte) (payload : List Byte)
  /-- show-buffer (R193). -/
  | showBuffer  (buf : Byte) (payload : List Byte)
  /-- clear-buffer (R194). -/
  | clearBuffer (buf : Byte) (payload : List Byte)
  /-- draw-text (R195). -/
  | drawText    (buf : Byte) (payload : List Byte)
  /-- scroll-left (R196). -/
  | scrollLeft  (buf : Byte) (payload : List Byte)
  /-- scroll-right (R197). -/
  | scrollRight (buf : Byte) (payload : List Byte)
deriving DecidableEq, Repr

/-- The verb of a command. -/
def Instr.verb : Instr → Verb
  | .setRow _ _ => .setRow
  | .showBuffer _ _ => .showBuffer
  | .clearBuffer _ _ => .clearBuffer
  | .drawText _ _ => .drawText
  | .scrollLeft _ _ => .scrollLeft
  | .scrollRight _ _ => .scrollRight

/-- The `BUF` field of a command. -/
def Instr.buf : Instr → Byte
  | .setRow b _ => b
  | .showBuffer b _ => b
  | .clearBuffer b _ => b
  | .drawText b _ => b
  | .scrollLeft b _ => b
  | .scrollRight b _ => b

/-- The payload of a command. -/
def Instr.payload : Instr → List Byte
  | .setRow _ p => p
  | .showBuffer _ p => p
  | .clearBuffer _ p => p
  | .drawText _ p => p
  | .scrollLeft _ p => p
  | .scrollRight _ p => p

/-- The causes of a rejection (`60_exceptions.md` R220). They are for the reader: only `STATUS` is output (R221). -/
inductive Reject where
  | badBuffer
  | badRow
  | oversizePayload
  | shortPayload
  | unknownVerb
  | slotBusy
deriving DecidableEq, Repr

end Sys2Proof
end

