-- ==== Sys2Proof/Machine/State.lean ====
section
/-!
DEFINITION. The state of the machine: every item of the table of `10_state.md` R20, the in-flight state of R33, the
open parameters of `00_scope.md` R6, and three fields of the model's own (the schedule, the records still to be
delivered, the recorded observation). INVENTORY.md lists each with its rule and its reset value.
-/

namespace Sys2Proof.Machine

/-- The framebuffer space of `20_memory.md` R51: addresses strictly rising, every one below 210, no entry 0. -/
abbrev Memory := List Host.Cell

/-- Direction of a scroll. -/
inductive Dir where
  | left
  | right
deriving DecidableEq, Repr

/-- `ANIM_KIND` (`10_state.md` R26): 0 none, 1 scroll-left, 2 scroll-right; 3 is never stored and has no constructor
(`92_eei_decisions.md` D32). -/
inductive AnimKind where
  | none
  | scrollLeft
  | scrollRight
deriving DecidableEq, Repr

/-- The serial output path: `SDATA` and `SCLK` (`10_state.md` R30) and the external column chain `SR` that they feed,
`SR[i]` being bit `i` (R31). -/
structure Serial where
  sdata : Bool
  sclk  : Bool
  sr    : BitVec 120
deriving DecidableEq, Repr

/-- The position of the command in progress (R33): what `C` does next, with the operands of the latched record and the
values it has loaded but not yet stored. -/
inductive CPos where
  /-- set-row: byte `k` of the row is written next. -/
  | setRow (b : BufIx) (row : RowIx) (bitmap : List Byte) (k : Nat)
  /-- show-buffer: `DISP` is written next. -/
  | showBuffer (b : BufIx)
  /-- clear-buffer: byte `n` of the buffer is written next. -/
  | clearBuffer (b : BufIx) (n : Nat)
  /-- draw-text: cursor `CX`, character index, glyph pixel `(i, j)`, and the byte loaded for it, if it is loaded. -/
  | drawText (b : BufIx) (y : Byte) (text : List Byte) (cx : BitVec 16) (ci j i : Nat) (t : Option Byte)
  /-- A scroll verb: `ANIM_KIND` is read next. -/
  | scrollTest (d : Dir) (fpp count : Byte)
  /-- A scroll verb: `FPP` is written next. -/
  | scrollFpp (d : Dir) (fpp count : Byte)
  /-- A scroll verb: `PIX_REM` is written next. -/
  | scrollRem (d : Dir) (count : Byte)
  /-- A scroll verb: `FRAME_CTR` is written next. -/
  | scrollCtr (d : Dir)
  /-- A scroll verb: `ANIM_KIND` is written next. -/
  | scrollKind (d : Dir)
  /-- The command is done or rejected: `STATUS` is driven next. -/
  | finish (st : Status)
deriving DecidableEq, Repr

/-- The position of the `STEP` in progress (R33; the pseudocode of `42_animation.md` R162, R163, R165 to R167): what `F`
does next, with the values it has loaded. -/
inductive FPos where
  /-- No `STEP` in progress: `FC` is read next, and `F` waits while it is 0. -/
  | waitFc
  /-- `FC` was read as 1 and is cleared next. -/
  | clearFc
  /-- `ANIM_KIND` is read next. -/
  | readKind
  /-- `FRAME_CTR` is read next. -/
  | readCtr (d : Dir)
  /-- `FPP` is read next; `c` is the incremented counter. -/
  | readFpp (d : Dir) (c : Nat)
  /-- A pacing step: `FRAME_CTR <- c` is next. -/
  | writeCtr (d : Dir) (c : Nat)
  /-- A shifting step: `FRAME_CTR <- 0` is next. -/
  | zeroCtr (d : Dir)
  /-- `DISP` is read next. -/
  | readDisp (d : Dir)
  /-- Byte `k` of row `r` of buffer `b` is loaded next, with carry `c`. -/
  | load (d : Dir) (b : BufIx) (r : RowIx) (k : ByteIx) (c : Bool)
  /-- Byte `k` of row `r` of buffer `b` is stored next, from the loaded byte `t` and the carry `c`. -/
  | store (d : Dir) (b : BufIx) (r : RowIx) (k : ByteIx) (c : Bool) (t : Byte)
  /-- `PIX_REM` is read next. -/
  | readRem (d : Dir)
  /-- `PIX_REM` was read as `n`, and `PIX_REM <- n - 1` is next. -/
  | writeRem (d : Dir) (n : Byte)
  /-- `ANIM_KIND <- 0` is next. -/
  | freeSlot (d : Dir)
deriving DecidableEq, Repr

/-- What an observer records (`41_refresh.md` R145, `70_reset_and_hazards.md` R264). -/
inductive Obs where
  /-- `ShowRow(r, b, d)`: a `TICK` showed row `r` of buffer `b`, whose 15 bytes were `d`. -/
  | showRow (r : RowIx) (b : BufIx) (d : List Byte)
  /-- A command was answered. -/
  | status (st : Status)
  /-- The block was reset, and every row is dark. -/
  | reset
deriving DecidableEq, Repr

/-- One choice of the schedule that the spec leaves open (`10_state.md` R34): who moves next. -/
inductive Choice where
  /-- A tick of the tick source: `T` performs one `TICK`. -/
  | tick
  /-- `C` carries out the record at the command port from its first micro-operation to its `STATUS`, with nothing of
  another agent in between. -/
  | command
  /-- `C` performs its next micro-operation. -/
  | commandMove
  /-- `F` performs one `STEP`, with nothing of another agent in between. -/
  | step
  /-- `F` performs its next micro-operation. -/
  | stepMove
  /-- The reset input is asserted (`70_reset_and_hazards.md` R250). -/
  | reset
deriving DecidableEq, Repr

/-- The state of the machine. -/
structure State where
  /-- `FB` (R22). -/
  fb       : Memory
  /-- `DISP` (R23). -/
  disp     : BufIx
  /-- `ROW` (R24); the value 7 is never stored and has no name here. -/
  row      : RowIx
  /-- `FC` (R25). -/
  fc       : Bool
  /-- `ANIM_KIND` (R26). -/
  animKind : AnimKind
  /-- `FRAME_CTR` (R27). -/
  frameCtr : Byte
  /-- `FPP` (R27). -/
  fpp      : Byte
  /-- `PIX_REM` (R27). -/
  pixRem   : Byte
  /-- `ROWSEL[0..6]`: true where the line is asserted (R30). -/
  rowsel   : Vector Bool 7
  /-- `SDATA`, `SCLK`, `SR` (R30, R31). -/
  serial   : Serial
  /-- `STATUS` (R32). -/
  status   : Status
  /-- The records the transport delivers, in order; the first stands at the command port until its `STATUS` (R32). -/
  commands : List Record
  /-- The command in progress, if any (R33). -/
  cPos     : Option CPos
  /-- The `STEP` in progress (R33). -/
  fPos     : FPos
  /-- The model's own: the schedule still to come. -/
  schedule : List Choice
  /-- The model's own: the observation so far, newest first. -/
  trace    : List Obs
  /-- The open parameters, `GLYPH` among them (R6, R29): nothing writes them. -/
  params   : Params
deriving DecidableEq, Repr

/-- How the machine stops. -/
inductive Fault where
  /-- Raised by the memory primitives for an address of 210 or more, which does not exist (`20_memory.md` R58). Safe; no
  operation of the machine computes such an address. -/
  | noSuchAddress (a : Nat)
deriving DecidableEq, Repr

/-- How the model gives an instruction no meaning. -/
inductive Refusal where
  /-- An instruction whose arm has no meaning yet; raised by `exec` alone. Safe. -/
  | notModelled (mnemonic : String)
deriving DecidableEq, Repr

/-- The machine right after reset (`10_state.md` R36). `SR` and `STATUS`, which R36 leaves unspecified, are 0 by choice
(log entries 7 and 8). -/
def State.reset : State :=
  { fb := []
    disp := 0
    row := 0
    fc := false
    animKind := .none
    frameCtr := 0
    fpp := 0
    pixRem := 0
    rowsel := #v[false, false, false, false, false, false, false]
    serial := { sdata := false, sclk := false, sr := 0 }
    status := .reject
    commands := []
    cPos := none
    fPos := .waitFc
    schedule := []
    trace := []
    params := Config.params }

end Sys2Proof.Machine
end

