-- ==== Sys2Proof/Machine/Flags.lean ====
section
/-!
DEFINITION. The one flag of the block, `FC` (`10_state.md` R25), and the status that a busy slot gives
(`60_exceptions.md` R224). There are no condition codes.
-/

namespace Sys2Proof.Machine

/-- `FC` after a `TICK` whose new row is `row`: set when the cursor wrapped to 0, otherwise as it was (`41_refresh.md`
R143). It is sticky and does not count. -/
def raisedFc (row : RowIx) (fc : Bool) : Bool := if row = 0 then true else fc

/-- Whether `F` may take a `STEP` (`42_animation.md` R162). -/
def stepEnabled (s : State) : Bool := s.fc

/-- `FC <- 0`, done by `F` before `step()` (R162). -/
def State.clearFc (s : State) : State := { s with fc := false }

/-- The status of a scroll request that finds the slot busy (R224): the parameter `SLOT_BUSY_STATUS`. -/
def busyStatus (s : State) : Status := s.params.slotBusyStatus

end Sys2Proof.Machine
end

