-- ==== Sys2Proof/Machine/Operands.lean ====
section
/-!
DEFINITION. Operand assembly and the checks of a record (`30_encoding.md` R83 to R87, R92): every field is one unsigned
byte. A record that fails a check gives the cause of its rejection, in the order of R92.
-/

namespace Sys2Proof.Machine

/-- The buffer a record names, legal when `BUF` is 0 or 1 (R83). -/
def bufferOf (buf : Byte) : Except Reject BufIx :=
  if h : buf.toNat < 2 then .ok ⟨buf.toNat, h⟩ else .error .badBuffer

/-- The row a set-row names, legal below 7 (R92). -/
def rowOf (v : Byte) : Except Reject RowIx :=
  if h : v.toNat < 7 then .ok ⟨v.toNat, h⟩ else .error .badRow

/-- The text of a message field: the bytes before its first NUL, or all of it (R86). -/
def textOf (message : List Byte) : List Byte := message.takeWhile fun c => c != 0

/-- `SetRow(b, row, bitmap)` (R92): `LEN` is 1 to 16. -/
def setRowOperands (buf : Byte) (payload : List Byte) : Except Reject (BufIx × RowIx × List Byte) :=
  match bufferOf buf with
  | .error c => .error c
  | .ok b =>
    match payload with
    | [] => .error .shortPayload
    | row :: bitmap =>
      if payload.length > 16 then .error .oversizePayload
      else
        match rowOf row with
        | .error c => .error c
        | .ok r => .ok (b, r, bitmap)

/-- `ShowBuffer(b)` and `ClearBuffer(b)` (R92): `LEN` is 0. -/
def bareBufferOperand (buf : Byte) (payload : List Byte) : Except Reject BufIx :=
  match bufferOf buf with
  | .error c => .error c
  | .ok b => if payload.length > 0 then .error .oversizePayload else .ok b

/-- `DrawText(b, x, y, text)` (R92): `LEN` is 2 to 32. -/
def drawTextOperands (buf : Byte) (payload : List Byte) : Except Reject (BufIx × Byte × Byte × List Byte) :=
  match bufferOf buf with
  | .error c => .error c
  | .ok b =>
    match payload with
    | x :: y :: message => if payload.length > 32 then .error .oversizePayload else .ok (b, x, y, textOf message)
    | _ => .error .shortPayload

/-- `ScrollLeft(fpp, count)` and `ScrollRight(fpp, count)` (R92): `LEN` is 2, and `BUF` is ignored (R83). -/
def scrollOperands (payload : List Byte) : Except Reject (Byte × Byte) :=
  match payload with
  | [fpp, count] => .ok (fpp, count)
  | _ :: _ :: _ :: _ => .error .oversizePayload
  | _ => .error .shortPayload

/-- The cause of a rejection that is a function of the record alone (R191), if the record has one. -/
def causeOf : Instr → Option Reject
  | .setRow buf p => match setRowOperands buf p with | .error c => some c | .ok _ => none
  | .showBuffer buf p => match bareBufferOperand buf p with | .error c => some c | .ok _ => none
  | .clearBuffer buf p => match bareBufferOperand buf p with | .error c => some c | .ok _ => none
  | .drawText buf p => match drawTextOperands buf p with | .error c => some c | .ok _ => none
  | .scrollLeft _ p => match scrollOperands p with | .error c => some c | .ok _ => none
  | .scrollRight _ p => match scrollOperands p with | .error c => some c | .ok _ => none

/-- The index of the glyph that a text byte selects (`30_encoding.md` R94): codes outside 32 to 95 select the space. -/
def glyphIndex (c : Byte) : Fin 64 :=
  if h : 32 ≤ c.toNat ∧ c.toNat ≤ 95 then ⟨c.toNat - 32, by omega⟩ else 0

/-- `GLYPH[g]` (`10_state.md` R29): entry 0 is the space, all of whose bitmap is 0. -/
def glyphEntry (t : GlyphTable) (g : Fin 64) : Glyph :=
  if h : g.val = 0 then { bm := Vector.replicate 7 0, w := t.space.w, h := t.space.h, adv := t.space.adv }
  else t.others[g.val - 1]'(by omega)

/-- The glyph of a text byte (`40_framebuffer_render.md` R118). -/
def glyphOf (t : GlyphTable) (c : Byte) : Glyph := glyphEntry t (glyphIndex c)

/-- `ANIM_KIND` of a direction (`10_state.md` R26). -/
def Dir.kind : Dir → AnimKind
  | .left => .scrollLeft
  | .right => .scrollRight

/-- The direction of an active slot; none when the slot is idle. -/
def AnimKind.dir? : AnimKind → Option Dir
  | .none => Option.none
  | .scrollLeft => some .left
  | .scrollRight => some .right

/-- The two bits of `ANIM_KIND` (R26). -/
def AnimKind.code : AnimKind → BitVec 2
  | .none => 0
  | .scrollLeft => 1
  | .scrollRight => 2

end Sys2Proof.Machine
end

