-- ==== Sys2Proof/Machine/Ops.lean ====
section
/-!
DEFINITION. The named operations over the framebuffer and over the answer to a command: the memory primitives
(`20_memory.md` R51), pixels, rows and buffers (`40_framebuffer_render.md` R110 to R113), and how a command ends, by `OK`
or by the one rejection that every cause takes (`60_exceptions.md` R223).
-/

namespace Sys2Proof.Machine

/-! ## The framebuffer as a memory -/

/-- The byte at an address. An address that is not listed holds 0x00, the reset contents (`10_state.md` R36). -/
def Memory.read : Memory → Nat → Byte
  | [], _ => 0
  | (x, u) :: m, a => if a < x then 0 else if a = x then u else Memory.read m a

/-- Write a byte, keeping the canonical form: writing 0x00 removes the entry. -/
def Memory.write : Memory → Nat → Byte → Memory
  | [], a, v => if v = 0 then [] else [(a, v)]
  | (x, u) :: m, a, v =>
    if a < x then (if v = 0 then (x, u) :: m else (a, v) :: (x, u) :: m)
    else if a = x then (if v = 0 then m else (a, v) :: m)
    else (x, u) :: Memory.write m a v

/-- The addresses from `lo` on are strictly rising, exist (R58), and no entry is 0x00. -/
def Memory.wfFrom (lo : Nat) : Memory → Bool
  | [] => true
  | (x, u) :: m => decide (lo ≤ x) && decide (x < 210) && decide (u ≠ 0) && Memory.wfFrom (x + 1) m

/-- The canonical form: equal memories are equal lists. -/
def Memory.wf (m : Memory) : Bool := Memory.wfFrom 0 m

/-- `addr(b, r, k) = 105*b + 15*r + k` (R51). -/
def fbAddr (b : BufIx) (r : RowIx) (k : ByteIx) : Nat := 105 * b.val + 15 * r.val + k.val

/-- `FB[b][r][k]`. -/
def fbRead (m : Memory) (b : BufIx) (r : RowIx) (k : ByteIx) : Byte := Memory.read m (fbAddr b r k)

/-- `FB[b][r][k] <- v`. -/
def fbWrite (m : Memory) (b : BufIx) (r : RowIx) (k : ByteIx) (v : Byte) : Memory := Memory.write m (fbAddr b r k) v

/-- `MemRead(addr, 1)` at any address (R51): an address of 210 or more does not exist (R58). -/
def memRead (m : Memory) (a : Nat) : Except Fault Byte :=
  if a < 210 then .ok (Memory.read m a) else .error (.noSuchAddress a)

/-- `MemWrite(addr, 1, v)` at any address (R51, R58). -/
def memWrite (m : Memory) (a : Nat) (v : Byte) : Except Fault Memory :=
  if a < 210 then .ok (Memory.write m a v) else .error (.noSuchAddress a)

/-! ## Pixels (R52, R110, R111) -/

/-- `getpix(bm, stride, x, y)` (R110). A byte index outside the bitmap, against R110's precondition, reads the
free value (log entry 11). -/
def getpix (bm : List Byte) (stride x y : Nat) : Bool :=
  (bm.getD (x / 8 + y * stride) (Config.outsideSource (x / 8 + y * stride))).getLsbD (7 - x % 8)

/-- The byte of a row that holds column `x`. -/
def byteOfCol (x : ColIx) : ByteIx := ⟨x.val / 8, by omega⟩

/-- The mask of column `x` in its byte (R111). -/
def maskOfCol (x : ColIx) : Byte := 1#8 <<< (7 - x.val % 8)

/-- A byte with one pixel set or cleared, the other seven as they were (R111). -/
def putBit (t : Byte) (x : ColIx) (p : Bool) : Byte := (t &&& ~~~ maskOfCol x) ||| (if p then maskOfCol x else 0)

/-- `setpix(b, x, y, p)` (R111). -/
def setpix (m : Memory) (b : BufIx) (x : ColIx) (y : RowIx) (p : Bool) : Memory :=
  fbWrite m b y (byteOfCol x) (putBit (fbRead m b y (byteOfCol x)) x p)

/-! ## Rows and buffers (R112, R113) -/

/-- The bytes of `row_write` (R112) from byte `k` of the row on, ascending. -/
def rowWriteFrom (b : BufIx) (row : RowIx) : Nat → List Byte → Memory → Memory
  | _, [], m => m
  | k, v :: vs, m => if h : k < 15 then rowWriteFrom b row (k + 1) vs (fbWrite m b row ⟨k, h⟩ v) else m

/-- `row_write(b, row, bitmap, n)` (R112). -/
def rowWrite (b : BufIx) (row : RowIx) (bitmap : List Byte) (m : Memory) : Memory := rowWriteFrom b row 0 bitmap m

/-- The first `n` writes of `buffer_clear` (R113), ascending from the buffer's first byte. -/
def clearFirst (b : BufIx) : Nat → Memory → Memory
  | 0, m => m
  | n + 1, m => Memory.write (clearFirst b n m) (105 * b.val + n) 0

/-- `buffer_clear(b)` (R113): rows ascending, bytes ascending, 105 writes. -/
def bufferClear (b : BufIx) (m : Memory) : Memory := clearFirst b 105 m

/-! ## The end of a command -/

/-- Drive `STATUS`, and record it (R199, R264). -/
def State.answer (s : State) (st : Status) : State := { s with status := st, trace := .status st :: s.trace }

/-- `done OK` (R9). -/
def State.done (s : State) : State := s.answer .ok

/-- `raise Reject(cause)` (R9, R223): the rejection that every cause takes. It drives `STATUS` and changes nothing else;
the cause is not output (R221). -/
def State.raiseReject (s : State) (_cause : Reject) : State := s.answer .reject

/-- The record at the command port is taken away, its `STATUS` given (R32, R66). -/
def State.releasePort (s : State) : State := { s with commands := s.commands.tail, cPos := none }

end Sys2Proof.Machine
end

