-- ==== Sys2Proof/Machine/Animation.lean ====
section
/-!
DEFINITION. The animation engine: the pixel shift (`42_animation.md` R165 to R167), `step()` (R163) and `STEP` (R162)
as whole operations, and `F`'s micro-operations, one at a time (`20_memory.md` R62, R65).
-/

namespace Sys2Proof.Machine

/-! ## One byte of a shift -/

/-- The byte stored from the loaded byte `t` and the carry `c` (R165, R166). -/
def shiftByte (d : Dir) (t : Byte) (c : Bool) : Byte :=
  match d with
  | .left => (t <<< 1) ||| (if c then 0x01 else 0)
  | .right => (t >>> 1) ||| (if c then 0x80 else 0)

/-- The carry that leaves the loaded byte `t`: `t[7]` to the left, `t[0]` to the right (R165, R166). -/
def carryOf (d : Dir) (t : Byte) : Bool :=
  match d with
  | .left => t.getLsbD 7
  | .right => t.getLsbD 0

/-- The byte a row's shift takes first (R165, R166). -/
def firstByte : Dir → ByteIx
  | .left => 14
  | .right => 0

/-- The byte a row's shift takes after byte `k`: the way the carry travels (R165, R166). -/
def nextByte (d : Dir) (k : ByteIx) : Option ByteIx :=
  match d with
  | .left => if k.val = 0 then none else some ⟨k.val - 1, by omega⟩
  | .right => if h : k.val < 14 then some ⟨k.val + 1, by omega⟩ else none

/-- The row after row `r`, if any (R167). -/
def rowAfter (r : RowIx) : Option RowIx := if h : r.val < 6 then some ⟨r.val + 1, by omega⟩ else none

/-! ## Whole operations -/

/-- The bytes of a row in the order its shift takes them (R165, R166). -/
def byteOrder : Dir → List ByteIx
  | .left => [14, 13, 12, 11, 10, 9, 8, 7, 6, 5, 4, 3, 2, 1, 0]
  | .right => [0, 1, 2, 3, 4, 5, 6, 7, 8, 9, 10, 11, 12, 13, 14]

/-- Rows 0 to 6, ascending (R167). -/
def rowsAscending : List RowIx := [0, 1, 2, 3, 4, 5, 6]

/-- Shift the listed bytes of a row, each a load then a store, the carry passing on. -/
def shiftBytes (d : Dir) (b : BufIx) (r : RowIx) : List ByteIx → Bool → Memory → Memory
  | [], _, m => m
  | k :: ks, c, m =>
    shiftBytes d b r ks (carryOf d (fbRead m b r k)) (fbWrite m b r k (shiftByte d (fbRead m b r k) c))

/-- `shift_left_row(b, r)` and `shift_right_row(b, r)` (R165, R166): 0 enters, the last carry is discarded. -/
def shiftRow (d : Dir) (b : BufIx) (r : RowIx) (m : Memory) : Memory := shiftBytes d b r (byteOrder d) false m

/-- `shift_buffer(kind)` (R167) on the buffer read from `DISP`. -/
def shiftBuffer (d : Dir) (b : BufIx) (m : Memory) : Memory := rowsAscending.foldl (fun m r => shiftRow d b r m) m

/-- The answers of `step()` (R163). -/
inductive StepResult where
  | idle
  | stillActive
  | finished
deriving DecidableEq, Repr

/-- `step()` (R163, R164). The comparison is on the incremented counter, a natural. -/
def animStep (s : State) : StepResult × State :=
  match s.animKind.dir? with
  | none => (.idle, s)
  | some d =>
    if s.frameCtr.toNat + 1 < s.fpp.toNat then
      (.stillActive, { s with frameCtr := BitVec.ofNat 8 (s.frameCtr.toNat + 1) })
    else if s.pixRem - 1 = 0 then
      (.finished, { s with frameCtr := 0, fb := shiftBuffer d s.disp s.fb, pixRem := s.pixRem - 1, animKind := .none })
    else
      (.stillActive, { s with frameCtr := 0, fb := shiftBuffer d s.disp s.fb, pixRem := s.pixRem - 1 })

/-- `STEP` (R162), undisturbed: nothing while `FC` is 0. -/
def takeStep (s : State) : State := if stepEnabled s then (animStep s.clearFc).2 else s

/-! ## Micro-operations -/

/-- Where `F` is after storing byte `k` of row `r`: the next byte, the next row, or the end of the shift. -/
def afterStore (d : Dir) (b : BufIx) (r : RowIx) (k : ByteIx) (t : Byte) : FPos :=
  match nextByte d k with
  | some k' => .load d b r k' (carryOf d t)
  | none =>
    match rowAfter r with
    | some r' => .load d b r' (firstByte d) false
    | none => .readRem d

/-- The next micro-operation of `F`: the pseudocode of R162, R163, R165 to R167, one line at a time. While `FC` is 0 and
no `STEP` is in progress `F` waits, which changes nothing. -/
def stepMove (s : State) : State :=
  match s.fPos with
  | .waitFc => if stepEnabled s then { s with fPos := .clearFc } else s
  | .clearFc => { s.clearFc with fPos := .readKind }
  | .readKind =>
    match s.animKind.dir? with
    | none => { s with fPos := .waitFc }
    | some d => { s with fPos := .readCtr d }
  | .readCtr d => { s with fPos := .readFpp d (s.frameCtr.toNat + 1) }
  | .readFpp d c => if c < s.fpp.toNat then { s with fPos := .writeCtr d c } else { s with fPos := .zeroCtr d }
  | .writeCtr _ c => { s with frameCtr := BitVec.ofNat 8 c, fPos := .waitFc }
  | .zeroCtr d => { s with frameCtr := 0, fPos := .readDisp d }
  | .readDisp d => { s with fPos := .load d s.disp 0 (firstByte d) false }
  | .load d b r k c => { s with fPos := .store d b r k c (fbRead s.fb b r k) }
  | .store d b r k c t => { s with fb := fbWrite s.fb b r k (shiftByte d t c), fPos := afterStore d b r k t }
  | .readRem d => { s with fPos := .writeRem d s.pixRem }
  | .writeRem d n => { s with pixRem := n - 1, fPos := if n - 1 = 0 then .freeSlot d else .waitFc }
  | .freeSlot _ => { s with animKind := .none, fPos := .waitFc }

end Sys2Proof.Machine
end

