-- ==== Sys2Proof/WellFormed.lean ====
section
/-!
DEFINITION. Which commands the record format can carry: `LEN` is 8 bits wide, so a payload has at most 255 bytes
(`30_encoding.md` R80). Whether a well-formed command is legal is the verb's own check (`Machine/Operands.lean`).
-/

namespace Sys2Proof

/-- A record that the command port can carry. -/
abbrev Record.WellFormed (r : Record) : Prop := r.payload.length ≤ 255

/-- A command that some record carries. -/
abbrev Instr.WellFormed (i : Instr) : Prop := i.payload.length ≤ 255

end Sys2Proof
end

