-- ==== Sys2Proof/Decode.lean ====
section
/-!
DEFINITION. Decoding a record, and a record from bytes; then the encoder, from the same tables (`30_encoding.md` R80 to
R92). The decoder of a record selects the verb; the checks of R92 on the operands are `Machine/Operands.lean`'s.
-/

namespace Sys2Proof

/-- Why bytes give no command: both are the transport's failure to frame a record or a reserved code (R88). -/
inductive DecodeError where
  /-- Fewer bytes than the three of the header, or than `LEN` says: no record stands there. -/
  | truncated
  /-- `VERB` selects no verb (R88). -/
  | unknownVerb (code : Byte)
deriving DecidableEq, Repr

/-- The verb that a code selects under a map, if any (R82). -/
def verbOf (m : VerbMap) (code : Byte) : Option Verb :=
  if code = m.setRow then some .setRow
  else if code = m.showBuffer then some .showBuffer
  else if code = m.clearBuffer then some .clearBuffer
  else if code = m.drawText then some .drawText
  else if code = m.scrollLeft then some .scrollLeft
  else if code = m.scrollRight then some .scrollRight
  else none

/-- The command of a verb with its record's `BUF` and payload. -/
def instrOf : Verb → Byte → List Byte → Instr
  | .setRow, b, p => .setRow b p
  | .showBuffer, b, p => .showBuffer b p
  | .clearBuffer, b, p => .clearBuffer b p
  | .drawText, b, p => .drawText b p
  | .scrollLeft, b, p => .scrollLeft b p
  | .scrollRight, b, p => .scrollRight b p

/-- The command of a record; none where `VERB` selects no verb, which is rejected (R88, R198). -/
def decodeRecord (m : VerbMap) (r : Record) : Option Instr :=
  (verbOf m r.verb).map fun v => instrOf v r.buf r.payload

/-- The record at the head of a sequence of bytes, header first (R81, R93), and the bytes after it. -/
def recordOfBytes : List Byte → Option (Record × List Byte)
  | verb :: buf :: len :: rest =>
    if rest.length < len.toNat then none
    else some ({ verb := verb, buf := buf, payload := rest.take len.toNat }, rest.drop len.toNat)
  | _ => none

/-- The command at the head of a sequence of bytes, and the bytes after it: total, refusing by name. -/
def decode (m : VerbMap) (bytes : List Byte) : Except DecodeError (Instr × List Byte) :=
  match recordOfBytes bytes with
  | none => .error .truncated
  | some (r, rest) =>
    match decodeRecord m r with
    | none => .error (.unknownVerb r.verb)
    | some i => .ok (i, rest)

/-- Bits `8 * n + 7` down to `8 * n` of a number. -/
def byteAt (w n : Nat) : Byte := BitVec.ofNat 8 (w / 2 ^ (8 * n))

/-- The bytes of the command whose first word, `HDR`, is bits 23 to 0 of `w` (R81) and whose payload bytes, in order,
are the bits above: the header's bytes first, `VERB` leading (R93), then as many payload bytes as `LEN` says. Bits from
`nbits` up are 0. -/
def bytesOfWord (nbits w : Nat) : List Byte :=
  let v := w % 2 ^ nbits
  byteAt v 2 :: byteAt v 1 :: byteAt v 0 :: (List.range (byteAt v 0).toNat).map fun n => byteAt v (n + 3)

/-- The command that the decoder reads from an instruction whose bits are `w`, numbered as the opcode table numbers
them, under the table's own codes. -/
def decodeTableWord (nbits w : Nat) : Option Instr :=
  match decode VerbMap.table (bytesOfWord nbits w) with
  | .ok (i, _) => some i
  | .error _ => none

/-- The record of an instruction whose bits are `w`: what the transport presents. -/
def recordOfWord (nbits w : Nat) : Record :=
  match recordOfBytes (bytesOfWord nbits w) with
  | some (r, _) => r
  | none => { verb := 0, buf := 0, payload := [] }

/-! ## The encoder -/

/-- The code of a verb under a map (R82). -/
def codeOf (m : VerbMap) : Verb → Byte
  | .setRow => m.setRow
  | .showBuffer => m.showBuffer
  | .clearBuffer => m.clearBuffer
  | .drawText => m.drawText
  | .scrollLeft => m.scrollLeft
  | .scrollRight => m.scrollRight

/-- The record of a command. -/
def encodeRecord (m : VerbMap) (i : Instr) : Record :=
  { verb := codeOf m i.verb, buf := i.buf, payload := i.payload }

/-- The header word `HDR[23:0] = VERB ++ BUF ++ LEN` of a record (R81). -/
def headerOf (r : Record) : BitVec 24 := r.verb ++ r.buf ++ BitVec.ofNat 8 r.len

/-- The bytes of a record, header first (R93). -/
def bytesOfRecord (r : Record) : List Byte := r.verb :: r.buf :: BitVec.ofNat 8 r.len :: r.payload

/-- The bytes of a command. -/
def encode (m : VerbMap) (i : Instr) : List Byte := bytesOfRecord (encodeRecord m i)

end Sys2Proof
end

