-- ==== Sys2Proof/Machine/Scroll.lean ====
section
/-!
DEFINITION. Starting a scroll and the verbs scroll-left and scroll-right (`42_animation.md` R161, R173;
`43_dispatcher.md` R196, R197).
-/

namespace Sys2Proof.Machine

/-- The answers of `start_scroll` (R161). -/
inductive StartResult where
  | started
  | busy
deriving DecidableEq, Repr

/-- `start_scroll(kind, fpp, count)` (R161): a busy slot and a count of 0 write nothing. -/
def startScroll (d : Dir) (fpp count : Byte) (s : State) : StartResult × State :=
  if s.animKind ≠ .none then (.busy, s)
  else if count = 0 then (.started, s)
  else (.started, { s with fpp := fpp, pixRem := count, frameCtr := 0, animKind := d.kind })

/-- What both scroll verbs do with their payload (R196, R197). A busy slot answers `SLOT_BUSY_STATUS`. -/
def scrollCommand (d : Dir) (payload : List Byte) (s : State) : State :=
  match scrollOperands payload with
  | .error c => s.raiseReject c
  | .ok (fpp, count) =>
    match startScroll d fpp count s with
    | (.started, s') => s'.done
    | (.busy, s') =>
      match busyStatus s with
      | .ok => s'.done
      | .reject => s'.raiseReject .slotBusy

/-- scroll-left (R196); `BUF` is ignored (`30_encoding.md` R83). -/
def execScrollLeft (_buf : Byte) (payload : List Byte) (s : State) : Host.Outcome State Fault Refusal :=
  .next (scrollCommand .left payload s)

/-- scroll-right (R197); `BUF` is ignored (R83). -/
def execScrollRight (_buf : Byte) (payload : List Byte) (s : State) : Host.Outcome State Fault Refusal :=
  .next (scrollCommand .right payload s)

end Sys2Proof.Machine
end

