-- ==== Sys2Proof/Machine/Text.lean ====
section
/-!
DEFINITION. Blit, text layout and the verb draw-text (`40_framebuffer_render.md` R114 to R122, `43_dispatcher.md` R195).
-/

namespace Sys2Proof.Machine

/-- One pixel of a blit (R114): written inside the bounds, skipped outside. `X` and `Y` are naturals and do not wrap. -/
def putClipped (m : Memory) (b : BufIx) (X Y : Nat) (p : Bool) : Memory :=
  if h : X < 120 ∧ Y < 7 then setpix m b ⟨X, h.1⟩ ⟨Y, h.2⟩ p else m

/-- One row of a blit, columns ascending (R114, R117). -/
def blitRow (src : List Byte) (sstride sx sy w : Nat) (b : BufIx) (dx Y : Nat) (m : Memory) : Memory :=
  (List.range w).foldl (fun m i => putClipped m b (dx + i) Y (getpix src sstride (sx + i) sy)) m

/-- The loop of a blit, rows ascending (R114, R117). It is called by `blit` alone, under `blit`'s precondition. -/
def blitRows (src : List Byte) (sstride sx sy w h : Nat) (b : BufIx) (dx dy : Nat) (m : Memory) : Memory :=
  (List.range h).foldl (fun m j => blitRow src sstride sx (sy + j) w b dx (dy + j) m) m

/-- The source rectangle lies inside the source bitmap (R123), which is `8 * sstride` pixels wide and as many rows high as
`src` holds whole; an empty rectangle lies inside any. -/
abbrev sourceInside (src : List Byte) (sstride sx sy w h : Nat) : Prop :=
  w = 0 ∨ h = 0 ∨ sx + w ≤ 8 * sstride ∧ (sy + h) * sstride ≤ src.length

/-- `blit(src, sstride, (sx, sy, w, h), b, (dx, dy))` (R114). R123 makes `sourceInside` its precondition and gives it no
meaning otherwise, so it asks for the proof (log entry 11). -/
def blit (src : List Byte) (sstride sx sy w h : Nat) (_inside : sourceInside src sstride sx sy w h) (b : BufIx)
    (dx dy : Nat) (m : Memory) : Memory :=
  blitRows src sstride sx sy w h b dx dy m

/-- The declared rectangle of a glyph lies inside its seven bytes, by the bounds on `w` and `h` (R123, `10_state.md`
R29). -/
theorem glyph_sourceInside (g : Glyph) : sourceInside g.bm.toList 1 0 0 g.w.val g.h.val := by
  have hl : g.bm.toList.length = 7 := by simp
  exact .inr (.inr (by omega))

/-- The cursor after a glyph (R119): 16 bits, which the operand ranges cannot overflow (R122). -/
def advance (cx : BitVec 16) (g : Glyph) : BitVec 16 := cx + g.adv.setWidth 16

/-- Blit one glyph at the cursor (R119): its declared rectangle, with stride 1. -/
def drawGlyph (g : Glyph) (b : BufIx) (cx : BitVec 16) (y : Byte) (m : Memory) : Memory :=
  blit g.bm.toList 1 0 0 g.w.val g.h.val (glyph_sourceInside g) b cx.toNat y.toNat m

/-- `draw_text` (R119) from cursor `cx` on. -/
def drawTextFrom (t : GlyphTable) (b : BufIx) (y : Byte) : BitVec 16 → List Byte → Memory → Memory
  | _, [], m => m
  | cx, c :: cs, m => drawTextFrom t b y (advance cx (glyphOf t c)) cs (drawGlyph (glyphOf t c) b cx y m)

/-- `draw_text(b, x, y, text)` (R119). -/
def drawText (t : GlyphTable) (b : BufIx) (x y : Byte) (text : List Byte) (m : Memory) : Memory :=
  drawTextFrom t b y (x.setWidth 16) text m

/-- The cursor at the end of a text (R122). -/
def cursorAfter (t : GlyphTable) (cx : BitVec 16) (text : List Byte) : BitVec 16 :=
  text.foldl (fun cx c => advance cx (glyphOf t c)) cx

/-- draw-text (R195): no coordinate is a cause of rejection. -/
def execDrawText (buf : Byte) (payload : List Byte) (s : State) : Host.Outcome State Fault Refusal :=
  match drawTextOperands buf payload with
  | .error c => .next (s.raiseReject c)
  | .ok (b, x, y, text) => .next ({ s with fb := drawText s.params.glyph b x y text s.fb }).done

end Sys2Proof.Machine
end

