-- ==== Sys2Proof/Machine/Command.lean ====
section
/-!
DEFINITION. A command in micro-operations (`20_memory.md` R62, R64): `C` latches the record, checks it whole (`43_dispatcher.md`
R191), makes the verb's reads and writes one at a time in the order of its pseudocode, and drives `STATUS`. A move that
touches no shared state (the checks, a skipped pixel, the end of a loop) is a move too; it is no micro-operation, and a
`TICK` may fall beside it as it may beside any (log entry 12).
-/

namespace Sys2Proof.Machine

/-- Where a command starts once its checks have passed; a rejected one has only its `STATUS` to give (R191, R223). -/
def startOf : Instr → CPos
  | .setRow buf p =>
    match setRowOperands buf p with
    | .error _ => .finish .reject
    | .ok (b, row, bitmap) => .setRow b row bitmap 0
  | .showBuffer buf p =>
    match bareBufferOperand buf p with
    | .error _ => .finish .reject
    | .ok b => .showBuffer b
  | .clearBuffer buf p =>
    match bareBufferOperand buf p with
    | .error _ => .finish .reject
    | .ok b => .clearBuffer b 0
  | .drawText buf p =>
    match drawTextOperands buf p with
    | .error _ => .finish .reject
    | .ok (b, x, y, text) => .drawText b y text (x.setWidth 16) 0 0 0 none
  | .scrollLeft _ p =>
    match scrollOperands p with
    | .error _ => .finish .reject
    | .ok (fpp, count) => .scrollTest .left fpp count
  | .scrollRight _ p =>
    match scrollOperands p with
    | .error _ => .finish .reject
    | .ok (fpp, count) => .scrollTest .right fpp count

/-- Where the command of a record starts: a reserved code is rejected (`30_encoding.md` R88). -/
def startOfRecord (m : VerbMap) (r : Record) : CPos :=
  match decodeRecord m r with
  | none => .finish .reject
  | some i => startOf i

/-- One move of set-row (R112). -/
def setRowMove (b : BufIx) (row : RowIx) (bitmap : List Byte) (k : Nat) (s : State) : State :=
  match bitmap[k]? with
  | none => { s with cPos := some (.finish .ok) }
  | some v =>
    if h : k < 15 then { s with fb := fbWrite s.fb b row ⟨k, h⟩ v, cPos := some (.setRow b row bitmap (k + 1)) }
    else { s with cPos := some (.finish .ok) }

/-- One move of clear-buffer (R113). -/
def clearBufferMove (b : BufIx) (n : Nat) (s : State) : State :=
  if n < 105 then { s with fb := Memory.write s.fb (105 * b.val + n) 0, cPos := some (.clearBuffer b (n + 1)) }
  else { s with cPos := some (.finish .ok) }

/-- One move of draw-text (R111, R114, R117, R119): load or store the current pixel's byte inside the bounds, skip the
pixel outside, or pass to the next row or glyph. -/
def drawTextMove (b : BufIx) (y : Byte) (text : List Byte) (cx : BitVec 16) (ci j i : Nat) (t : Option Byte) (s : State) :
    State :=
  match text[ci]? with
  | none => { s with cPos := some (.finish .ok) }
  | some c =>
    let g := glyphOf s.params.glyph c
    if j < g.h.val then
      if i < g.w.val then
        if h : cx.toNat + i < 120 ∧ y.toNat + j < 7 then
          let x : ColIx := ⟨cx.toNat + i, h.1⟩
          let r : RowIx := ⟨y.toNat + j, h.2⟩
          match t with
          | none => { s with cPos := some (.drawText b y text cx ci j i (some (fbRead s.fb b r (byteOfCol x)))) }
          | some v =>
            { s with
              fb := fbWrite s.fb b r (byteOfCol x) (putBit v x (getpix g.bm.toList 1 i j))
              cPos := some (.drawText b y text cx ci j (i + 1) none) }
        else { s with cPos := some (.drawText b y text cx ci j (i + 1) none) }
      else { s with cPos := some (.drawText b y text cx ci (j + 1) 0 none) }
    else { s with cPos := some (.drawText b y text (advance cx g) (ci + 1) 0 0 none) }

/-- `start_scroll`'s read of `ANIM_KIND` (R161): busy, nothing to start, or on to the four writes. -/
def scrollTestMove (d : Dir) (fpp count : Byte) (s : State) : State :=
  if s.animKind ≠ .none then { s with cPos := some (.finish (busyStatus s)) }
  else if count = 0 then { s with cPos := some (.finish .ok) }
  else { s with cPos := some (.scrollFpp d fpp count) }

/-- The next move of the command at position `p`. -/
def commandMoveAt (p : CPos) (s : State) : State :=
  match p with
  | .setRow b row bitmap k => setRowMove b row bitmap k s
  | .showBuffer b => { s with disp := b, cPos := some (.finish .ok) }
  | .clearBuffer b n => clearBufferMove b n s
  | .drawText b y text cx ci j i t => drawTextMove b y text cx ci j i t s
  | .scrollTest d fpp count => scrollTestMove d fpp count s
  | .scrollFpp d fpp count => { s with fpp := fpp, cPos := some (.scrollRem d count) }
  | .scrollRem d count => { s with pixRem := count, cPos := some (.scrollCtr d) }
  | .scrollCtr d => { s with frameCtr := 0, cPos := some (.scrollKind d) }
  | .scrollKind d => { s with animKind := d.kind, cPos := some (.finish .ok) }
  | .finish st => (s.answer st).releasePort

/-- The next move of `C`: of the command in progress, or the start of the record at the port; nothing when there is
neither. -/
def commandMove (s : State) : State :=
  match s.cPos with
  | some p => commandMoveAt p s
  | none =>
    match s.commands with
    | [] => s
    | r :: _ => { s with cPos := some (startOfRecord s.params.verbMap r) }

end Sys2Proof.Machine
end

