-- ==== Sys2Proof/Machine/Framebuffer.lean ====
section
/-!
DEFINITION. The framebuffer verbs: set-row, show-buffer, clear-buffer (`43_dispatcher.md` R192 to R194).
-/

namespace Sys2Proof.Machine

/-- set-row (R192). -/
def execSetRow (buf : Byte) (payload : List Byte) (s : State) : Host.Outcome State Fault Refusal :=
  match setRowOperands buf payload with
  | .error c => .next (s.raiseReject c)
  | .ok (b, row, bitmap) => .next ({ s with fb := rowWrite b row bitmap s.fb }).done

/-- show-buffer (R193). -/
def execShowBuffer (buf : Byte) (payload : List Byte) (s : State) : Host.Outcome State Fault Refusal :=
  match bareBufferOperand buf payload with
  | .error c => .next (s.raiseReject c)
  | .ok b => .next ({ s with disp := b }).done

/-- clear-buffer (R194). -/
def execClearBuffer (buf : Byte) (payload : List Byte) (s : State) : Host.Outcome State Fault Refusal :=
  match bareBufferOperand buf payload with
  | .error c => .next (s.raiseReject c)
  | .ok b => .next ({ s with fb := bufferClear b s.fb }).done

end Sys2Proof.Machine
end

