-- ==== Sys2Proof/Machine/Dispatch.lean ====
section
/-!
DEFINITION. The meaning of every command, one arm per constructor of `Instr` (`43_dispatcher.md` R190).
-/

namespace Sys2Proof.Machine

def exec (i : Instr) (s : State) : Host.Outcome State Fault Refusal :=
  match i with
  | .setRow buf payload => Sys2Proof.Machine.execSetRow buf payload s
  | .showBuffer buf payload => Sys2Proof.Machine.execShowBuffer buf payload s
  | .clearBuffer buf payload => Sys2Proof.Machine.execClearBuffer buf payload s
  | .drawText buf payload => Sys2Proof.Machine.execDrawText buf payload s
  | .scrollLeft buf payload => Sys2Proof.Machine.execScrollLeft buf payload s
  | .scrollRight buf payload => Sys2Proof.Machine.execScrollRight buf payload s

end Sys2Proof.Machine
end

