-- ==== Sys2Proof/Machine/Refresh.lean ====
section
/-!
DEFINITION. The refresh sequencer: `TICK` (`41_refresh.md` R141 to R147).
-/

namespace Sys2Proof.Machine

/-- Byte indices 0 to 14, ascending. -/
def bytesAscending : List ByteIx := [0, 1, 2, 3, 4, 5, 6, 7, 8, 9, 10, 11, 12, 13, 14]

/-- `(ROW + 1) mod 7` (R141, step 2). -/
def nextRow (r : RowIx) : RowIx := ⟨(r.val + 1) % 7, by omega⟩

/-- The 15 bytes of a row (R141, step 3). -/
def rowBytes (m : Memory) (b : BufIx) (r : RowIx) : List Byte := bytesAscending.map fun k => fbRead m b r k

/-- The bits of a byte in the order they are sent, most significant first (R142). -/
def byteBits (v : Byte) : List Bool := [7, 6, 5, 4, 3, 2, 1, 0].map fun n => v.getLsbD n

/-- The bits of a row in the order they are sent, byte 0 first (R142). -/
def rowBits (d : List Byte) : List Bool := d.flatMap byteBits

/-- `SDATA <- p`, then one clock pulse: `SCLK <- 1`, on which `SR` shifts in `SDATA` (`10_state.md` R31), and
`SCLK <- 0`. -/
def sendBit (l : Serial) (p : Bool) : Serial := { sdata := p, sclk := false, sr := l.sr.shiftConcat p }

/-- Serialise a row (R141, step 4). -/
def sendRow (l : Serial) (d : List Byte) : Serial := (rowBits d).foldl sendBit l

/-- `TICK` (R141), recorded as the event `ShowRow` (R145). `DISP` is read fresh (R147). -/
def tick (s : State) : State :=
  let row := nextRow s.row
  let d := rowBytes s.fb s.disp row
  { s with
    rowsel := (s.rowsel.set s.row.val false).set row.val true
    row := row
    serial := sendRow s.serial d
    fc := raisedFc row s.fc
    trace := .showRow row s.disp d :: s.trace }

end Sys2Proof.Machine
end

