-- ==== Sys2Proof/Machine/Schedule.lean ====
section
/-!
DEFINITION. Who moves next (`20_memory.md` R60 to R66, `60_exceptions.md` R227 to R231): the schedule, which the spec
leaves open, is data of State. A choice that the ordering rules hold off while a command is in progress stays first, and
the command goes on (log entry 2); with no choice left, what is pending is done by priority, and then the block idles
(log entry 22).
-/

namespace Sys2Proof.Machine

/-- A whole command from its record, with nothing in between (`43_dispatcher.md` R190, R198). -/
def runRecord (r : Record) (s : State) : Host.Outcome State Fault Refusal :=
  match decodeRecord s.params.verbMap r with
  | none => .next (s.raiseReject .unknownVerb)
  | some i => exec i s

/-- Reset (`70_reset_and_hazards.md` R250, R251): every register at its reset value; the command in progress is dropped
with no status; the parameters, the records still to come and the schedule are the environment's and stay. -/
def resetBlock (s : State) : State :=
  { State.reset with
    commands := if s.cPos.isSome then s.commands.tail else s.commands
    schedule := s.schedule
    trace := .reset :: s.trace
    params := s.params }

/-- Whether a `TICK` may happen now (R64): not inside a command unless `CMD_PREEMPTIBLE`. -/
def tickAdmitted (s : State) : Bool := s.cPos.isNone || s.params.cmdPreemptible

/-- The choice `tick`: a tick that may not fall inside the command in progress waits for its end. -/
def chooseTick (rest : List Choice) (s : State) : Host.Outcome State Fault Refusal :=
  if tickAdmitted s then .next (tick { s with schedule := rest }) else .next (commandMove s)

/-- The choice `command`: the record at the port, whole; a command in progress is finished first. -/
def chooseCommand (rest : List Choice) (s : State) : Host.Outcome State Fault Refusal :=
  match s.cPos with
  | some p => .next (commandMoveAt p s)
  | none =>
    match s.commands with
    | [] => .next { s with schedule := rest }
    | r :: rs => runRecord r { s with commands := rs, schedule := rest }

/-- The choice `commandMove`. -/
def chooseCommandMove (rest : List Choice) (s : State) : Host.Outcome State Fault Refusal :=
  .next (commandMove { s with schedule := rest })

/-- The choice `step`: one whole `STEP`; a command in progress goes on instead (R65), and so does a `STEP` in progress. -/
def chooseStep (rest : List Choice) (s : State) : Host.Outcome State Fault Refusal :=
  match s.cPos with
  | some p => .next (commandMoveAt p s)
  | none =>
    match s.fPos with
    | .waitFc => .next (takeStep { s with schedule := rest })
    | _ => .next (stepMove s)

/-- The choice `stepMove`: a command in progress goes on instead (R65). -/
def chooseStepMove (rest : List Choice) (s : State) : Host.Outcome State Fault Refusal :=
  match s.cPos with
  | some p => .next (commandMoveAt p s)
  | none => .next (stepMove { s with schedule := rest })

/-- No choice left: the command in progress, then the record at the port, then `F`; and when nothing is pending the block
idles (R162, R234). -/
def noChoice (s : State) : Host.Outcome State Fault Refusal :=
  match s.cPos with
  | some p => .next (commandMoveAt p s)
  | none =>
    match s.commands with
    | r :: rs => runRecord r { s with commands := rs }
    | [] => .next (stepMove s)

/-- One step of the machine. -/
def act (s : State) : Host.Outcome State Fault Refusal :=
  match s.schedule with
  | [] => noChoice s
  | .tick :: rest => chooseTick rest s
  | .command :: rest => chooseCommand rest s
  | .commandMove :: rest => chooseCommandMove rest s
  | .step :: rest => chooseStep rest s
  | .stepMove :: rest => chooseStepMove rest s
  | .reset :: rest => .next (resetBlock { s with schedule := rest })

/-- The record is at the command port, no command is in progress, and the command is chosen to be carried out next. -/
def State.present (s : State) (r : Record) : State :=
  { s with commands := r :: s.commands, cPos := none, schedule := .command :: s.schedule }

end Sys2Proof.Machine
end

