-- ==== Sys2Proof/Machine/Step.lean ====
section
/-!
DEFINITION. The step of the machine, and how one command is placed where the next step takes it.
-/

namespace Sys2Proof.Machine

/-- One step: the first choice of the schedule, or what is pending when none is left. -/
def step (s : State) : Host.Outcome State Fault Refusal := act s

/-- `s` with the record of an instruction whose bits are `w` at the command port, to be carried out by the next step. -/
def State.withFetchWord (s : State) (nbits w : Nat) : State := s.present (recordOfWord nbits w)

end Sys2Proof.Machine
end

