-- ==== Sys2Proof/Machine/View.lean ====
section
/-!
DEFINITION. What a claim reads: pixels, LEDs and the physical view of the open parameters. Nothing here is part of a
step.
-/

namespace Sys2Proof.Machine

/-- Pixel `(x, y)` of buffer `b`: bit `7 - (x mod 8)` of `FB[b][y][x div 8]` (`20_memory.md` R52). -/
def pixel (m : Memory) (b : BufIx) (x : ColIx) (y : RowIx) : Bool :=
  (fbRead m b y (byteOfCol x)).getLsbD (7 - x.val % 8)

/-- Pixel `x` of a row given as its 15 bytes (`41_refresh.md` R145). -/
def rowPixel (d : List Byte) (x : ColIx) : Bool := (d.getD (x.val / 8) 0).getLsbD (7 - x.val % 8)

/-- LED column `x` of row `r` is lit exactly when `SR[119 - x] = 1` and `ROWSEL[r]` is asserted (`10_state.md` R31). -/
def ledLit (s : State) (x : ColIx) (r : RowIx) : Bool := s.serial.sr.getLsbD (119 - x.val) && s.rowsel[r.val]

/-- The electrical level of a select line: `ROWSEL_ACTIVE` where the line is asserted (`10_state.md` R30). -/
def rowselLevel (s : State) (r : RowIx) : Bool :=
  if s.rowsel[r.val] then s.params.rowselActive else !s.params.rowselActive

/-- How many rows above row `r` the sign has, by `ROW0_IS_TOP` (`00_scope.md` R6). -/
def rowsAbove (s : State) (r : RowIx) : Nat := if s.params.row0IsTop then r.val else 6 - r.val

/-- The time one full frame takes: seven ticks (`60_exceptions.md` R236, `70_reset_and_hazards.md` R262). -/
def framePeriod (p : Params) : Nat := 7 * p.tickPeriod

/-- The pixel of a glyph: row `j`, column `i` (`40_framebuffer_render.md` R110). -/
def glyphPixel (g : Glyph) (i j : Nat) : Bool := (g.bm.toList.getD j 0).getLsbD (7 - i)

/-- What a text makes of pixel `(X, Y)` whose value was `p`, glyph by glyph: the footprint's pixel inside the footprint at
the cursor, and `p` outside (`40_framebuffer_render.md` R116, R119). -/
def textPixel (t : GlyphTable) (y X Y : Nat) : Nat → List Byte → Bool → Bool
  | _, [], p => p
  | cx, c :: cs, p =>
    let g := glyphOf t c
    textPixel t y X Y (cx + g.adv.toNat) cs
      (if cx ≤ X ∧ X < cx + g.w.val ∧ y ≤ Y ∧ Y < y + g.h.val then glyphPixel g (X - cx) (Y - y) else p)

/-- Pixel `x` of a row shifted by `n` columns, 0 entering (`42_animation.md` R174): pixel `x + n` to the left, pixel
`x - n` to the right, and 0 where that column does not exist. -/
def shiftedBy (d : Dir) (n : Nat) (f : ColIx → Bool) (x : ColIx) : Bool :=
  match d with
  | .left => if h : x.val + n < 120 then f ⟨x.val + n, h⟩ else false
  | .right => if n ≤ x.val then f ⟨x.val - n, by omega⟩ else false

end Sys2Proof.Machine
end

