-- ==== Sys2Proof/Safety.lean ====
section
/-!
DEFINITION. What claims rest on: the invariants of the machine, each from the rule that states it, and runs of several
steps.
-/

namespace Sys2Proof.Machine

/-- The framebuffer is in canonical form, every entry at one of the 210 addresses that exist (`20_memory.md` R51, R58). -/
abbrev State.fbOk (s : State) : Prop := Memory.wf s.fb = true

/-- The row that the observation says is lit, with its buffer and bytes (`41_refresh.md` R145): the last `ShowRow`, unless
a reset came after it. -/
def lastShown : List Obs → Option (RowIx × BufIx × List Byte)
  | [] => none
  | .showRow r b d :: _ => some (r, b, d)
  | .status _ :: t => lastShown t
  | .reset :: _ => none

/-- The LEDs that the observation says are lit (R145). -/
def shownLit (t : List Obs) (x : ColIx) (r : RowIx) : Bool :=
  match lastShown t with
  | none => false
  | some (r', _, d) => decide (r = r') && rowPixel d x

/-- The outputs agree with the observation (`41_refresh.md` R144, R145): exactly the line of the row last shown is
asserted, it is `ROWSEL[ROW]`, none before the first `TICK` after reset, and the LEDs lit are those of the last
`ShowRow`. -/
structure State.DisplayOk (s : State) : Prop where
  lines : ∀ r : RowIx, s.rowsel[r.val] = (match lastShown s.trace with | none => false | some (r', _, _) => decide (r = r'))
  atRow : ∀ r b d, lastShown s.trace = some (r, b, d) → r = s.row
  lit   : ∀ x r, ledLit s x r = shownLit s.trace x r

/-- What the position of `F` says of the slot: between reading an active `ANIM_KIND` and the end of its `step()`, `F` has
the slot to itself (`20_memory.md` R70), and the values it has loaded are those the registers hold. -/
def stepPosOk (s : State) : Prop :=
  match s.fPos with
  | .waitFc => True
  | .clearFc => True
  | .readKind => True
  | .readCtr d => s.animKind = d.kind
  | .readFpp d c => s.animKind = d.kind ∧ c = s.frameCtr.toNat + 1
  | .writeCtr d c => s.animKind = d.kind ∧ c < s.fpp.toNat
  | .zeroCtr d => s.animKind = d.kind
  | .readDisp d => s.animKind = d.kind
  | .load d _ _ _ _ => s.animKind = d.kind
  | .store d _ _ _ _ _ => s.animKind = d.kind
  | .readRem d => s.animKind = d.kind
  | .writeRem d n => s.animKind = d.kind ∧ n = s.pixRem
  | .freeSlot d => s.animKind = d.kind ∧ s.pixRem = 0

/-- What the position of `C` says of the slot: it writes the scroll state only of an idle slot (R70), and starts no
animation of 0 pixels (`42_animation.md` R161). -/
def commandPosOk (s : State) : Prop :=
  match s.cPos with
  | some (.scrollFpp _ _ count) => s.animKind = .none ∧ count ≠ 0
  | some (.scrollRem _ count) => s.animKind = .none ∧ count ≠ 0
  | some (.scrollCtr _) => s.animKind = .none ∧ s.pixRem ≠ 0
  | some (.scrollKind _) => s.animKind = .none ∧ s.pixRem ≠ 0 ∧ s.frameCtr = 0
  | _ => True

/-- The invariants of the animation slot (`10_state.md` R28): while it is active `FRAME_CTR < max(FPP, 1)`, and
`PIX_REM >= 1` but for the moment between the last decrement and the freeing of the slot. -/
structure State.SlotOk (s : State) : Prop where
  pacing    : s.animKind ≠ .none → s.frameCtr.toNat < max s.fpp.toNat 1
  remaining : s.animKind ≠ .none → s.pixRem ≠ 0 ∨ ∃ d, s.fPos = .freeSlot d
  stepPos   : stepPosOk s
  command   : commandPosOk s

/-- The invariant of the whole machine. -/
structure State.Inv (s : State) : Prop where
  fb      : s.fbOk
  display : s.DisplayOk
  slot    : s.SlotOk

/-- `n` steps of the machine, by the host's own run. -/
def run (n : Nat) (s : State) : Host.Outcome State Fault Refusal := Host.Core.run Sys2Proof.core n s

/-- Whether an event is the `ShowRow` of a `TICK` in which `ROW` wrapped to 0, the one that raises `FC` (`41_refresh.md`
R143). -/
def Obs.wraps : Obs → Bool
  | .showRow r _ _ => decide (r = 0)
  | .status _ => false
  | .reset => false

/-- `step()` called alone (`42_animation.md` R163), its answer dropped. -/
def stepAlone (s : State) : State := (animStep s).2

/-- The scroll verb of a direction. -/
def scrollVerb : Dir → Byte → List Byte → Instr
  | .left => .scrollLeft
  | .right => .scrollRight

/-- The lengths of a payload that are legal for a verb (`30_encoding.md` R87). -/
def legalLen : Instr → Nat → Prop
  | .setRow _ _, n => 1 ≤ n ∧ n ≤ 16
  | .showBuffer _ _, n => n = 0
  | .clearBuffer _ _, n => n = 0
  | .drawText _ _, n => 2 ≤ n ∧ n ≤ 32
  | .scrollLeft _ _, n => n = 2
  | .scrollRight _ _, n => n = 2

/-- The state after a command answered `st` with no other effect. -/
def State.onlyAnswered (s : State) (st : Status) : State := { s with status := st, trace := .status st :: s.trace }

end Sys2Proof.Machine
end

