-- ==== Sys2Proof/Certificates/Slice0/Obligations.lean ====
section
/-!
DEFINITION. The statements for the provers, each with the rule of spec/ that it formalises. A statement about every state
takes as a premise only what a reachable state meets: `State.fbOk`, `State.DisplayOk`, `State.SlotOk`, each kept by every
step (`StepKeepsCanonicalFramebuffer`, `StepKeepsDisplay`, `StepKeepsSlot`) and met at reset (`ResetMeetsInvariant`). Every
statement holds for every value of the open parameters, which State carries.
-/

open Sys2Proof Sys2Proof.Machine

/-! ## Encoding -/

/-- Decoding the bytes of a well-formed command gives it back, and the bytes after it, under any map with distinct codes
(`30_encoding.md` R80, R81, R82). -/
def Obligations.DecodeOfEncode : Prop :=
  ∀ (m : VerbMap) (i : Instr) (rest : List Byte), m.distinct → i.WellFormed →
    decode m (encode m i ++ rest) = .ok (i, rest)

/-- Bytes that decode to a command are that command's own encoding, and the command is well formed: each record has one
meaning (`30_encoding.md` R81, R92). -/
def Obligations.EncodeOfDecode : Prop :=
  ∀ (m : VerbMap) (bytes : List Byte) (i : Instr) (rest : List Byte),
    decode m bytes = .ok (i, rest) → i.WellFormed ∧ encode m i ++ rest = bytes

/-- The codes of the table select their verbs, and every other code selects none (`30_encoding.md` R82, R88). -/
def Obligations.TableCodesSelectVerbs : Prop :=
  ∀ r : Record, decodeRecord VerbMap.table r =
    if r.verb = 0x00 then some (.setRow r.buf r.payload)
    else if r.verb = 0x01 then some (.showBuffer r.buf r.payload)
    else if r.verb = 0x02 then some (.clearBuffer r.buf r.payload)
    else if r.verb = 0x03 then some (.drawText r.buf r.payload)
    else if r.verb = 0x04 then some (.scrollLeft r.buf r.payload)
    else if r.verb = 0x05 then some (.scrollRight r.buf r.payload)
    else none

/-- Words written out from the encodings of `95_test_vectors.md` 3.1 (D1, D4, D5, D6, D13, D14) decode to what they stand
for. -/
def Obligations.SpecRecordsDecode : Prop :=
  decode VerbMap.table [0x00, 0x01, 0x05, 0x03, 0x81, 0x42, 0x24, 0x18] = .ok (.setRow 1 [0x03, 0x81, 0x42, 0x24, 0x18], []) ∧
  decode VerbMap.table [0x01, 0x01, 0x00] = .ok (.showBuffer 1 [], []) ∧
  decode VerbMap.table [0x02, 0x00, 0x00] = .ok (.clearBuffer 0 [], []) ∧
  decode VerbMap.table [0x03, 0x00, 0x05, 0x03, 0x00, 0x41, 0x42, 0x00] =
    .ok (.drawText 0 [0x03, 0x00, 0x41, 0x42, 0x00], []) ∧
  decode VerbMap.table [0x04, 0x00, 0x02, 0x02, 0x05] = .ok (.scrollLeft 0 [0x02, 0x05], []) ∧
  decode VerbMap.table [0x05, 0x00, 0x02, 0x01, 0x78] = .ok (.scrollRight 0 [0x01, 0x78], [])

/-- The header word of a record is `VERB ++ BUF ++ LEN`, and the bytes of that word are the three bytes of the header
(`30_encoding.md` R81). -/
def Obligations.HeaderWordFields : Prop :=
  ∀ r : Record, r.WellFormed →
    (headerOf r).extractLsb' 16 8 = r.verb ∧ (headerOf r).extractLsb' 8 8 = r.buf ∧
    ((headerOf r).extractLsb' 0 8).toNat = r.len ∧
    (bytesOfWord 24 (headerOf r).toNat).take 3 = (bytesOfRecord r).take 3

/-! ## Checks and rejections -/

/-- When the record of a command gives it a cause of rejection, and which: the checks of `30_encoding.md` R92 in its
order. -/
def Obligations.ChecksOfARecord : Prop :=
  ∀ (buf : Byte) (p : List Byte),
    causeOf (.setRow buf p) =
      (if 2 ≤ buf.toNat then some .badBuffer else if p.length = 0 then some .shortPayload
       else if 16 < p.length then some .oversizePayload
       else if 7 ≤ (p.headD 0).toNat then some .badRow else none) ∧
    causeOf (.showBuffer buf p) =
      (if 2 ≤ buf.toNat then some .badBuffer else if 0 < p.length then some .oversizePayload else none) ∧
    causeOf (.clearBuffer buf p) =
      (if 2 ≤ buf.toNat then some .badBuffer else if 0 < p.length then some .oversizePayload else none) ∧
    causeOf (.drawText buf p) =
      (if 2 ≤ buf.toNat then some .badBuffer else if p.length < 2 then some .shortPayload
       else if 32 < p.length then some .oversizePayload else none) ∧
    causeOf (.scrollLeft buf p) =
      (if p.length < 2 then some .shortPayload else if 2 < p.length then some .oversizePayload else none) ∧
    causeOf (.scrollRight buf p) =
      (if p.length < 2 then some .shortPayload else if 2 < p.length then some .oversizePayload else none)

/-- A payload length outside the legal set of the verb is rejected with no effect (`30_encoding.md` R87). -/
def Obligations.IllegalLengthIsRejected : Prop :=
  ∀ (i : Instr) (s : State), ¬ legalLen i i.payload.length → exec i s = .next (s.onlyAnswered .reject)

/-- A record whose code selects no verb is rejected with no effect, and under the table's map the codes `0x06` to `0xFF`
select none (`30_encoding.md` section 3, `43_dispatcher.md` section 2: R88 and R198, the spec's decision D10). -/
def Obligations.UnknownVerbIsRejected : Prop :=
  (∀ (s : State) (r : Record) (rs : List Record) (rest : List Choice),
    s.schedule = .command :: rest → s.cPos = none → s.commands = r :: rs → decodeRecord s.params.verbMap r = none →
    step s = .next ({ s with schedule := rest, commands := rs }.onlyAnswered .reject)) ∧
  ∀ r : Record, 6 ≤ r.verb.toNat → decodeRecord VerbMap.table r = none

/-- Each command ends with exactly one `STATUS`; it is `REJECT` exactly when the record gives a cause or a scroll finds the
slot busy and `SLOT_BUSY_STATUS` is `REJECT`; a rejected command leaves every register, framebuffer byte and output line as
it was (`43_dispatcher.md` R191, R199, `60_exceptions.md` R223). -/
def Obligations.EveryCommandIsAnsweredOnce : Prop :=
  ∀ (i : Instr) (s : State), ∃ t, exec i s = .next t ∧ t.trace = .status t.status :: s.trace ∧
    (t.status = .reject ↔ causeOf i ≠ none ∨
      ((i.verb = .scrollLeft ∨ i.verb = .scrollRight) ∧ s.animKind ≠ .none ∧ s.params.slotBusyStatus = .reject)) ∧
    (t.status = .reject → t = s.onlyAnswered .reject)

/-! ## The framebuffer verbs -/

/-- set-row overwrites the bytes given, from byte 0 of the row, and nothing else (`43_dispatcher.md` R192,
`40_framebuffer_render.md` R112). -/
def Obligations.SetRowWritesTheBytesGiven : Prop :=
  ∀ (s : State) (buf row : Byte) (bitmap : List Byte), s.fbOk → buf.toNat < 2 → row.toNat < 7 → bitmap.length ≤ 15 →
    ∃ fb', exec (.setRow buf (row :: bitmap)) s =
        .next { s with fb := fb', status := .ok, trace := .status .ok :: s.trace } ∧
      ∀ (b : BufIx) (r : RowIx) (k : ByteIx), fbRead fb' b r k =
        if b.val = buf.toNat ∧ r.val = row.toNat ∧ k.val < bitmap.length then bitmap.getD k.val 0 else fbRead s.fb b r k

/-- show-buffer writes `DISP` and nothing else (`43_dispatcher.md` R193). -/
def Obligations.ShowBufferWritesDisp : Prop :=
  ∀ (s : State) (buf : Byte) (b : BufIx), buf.toNat = b.val →
    exec (.showBuffer buf []) s = .next { s with disp := b, status := .ok, trace := .status .ok :: s.trace }

/-- clear-buffer zeroes the 105 bytes of the named buffer and nothing else (`43_dispatcher.md` R194,
`40_framebuffer_render.md` R113). -/
def Obligations.ClearBufferZeroesTheBuffer : Prop :=
  ∀ (s : State) (buf : Byte), s.fbOk → buf.toNat < 2 →
    ∃ fb', exec (.clearBuffer buf []) s =
        .next { s with fb := fb', status := .ok, trace := .status .ok :: s.trace } ∧
      ∀ (b : BufIx) (r : RowIx) (k : ByteIx), fbRead fb' b r k = if b.val = buf.toNat then 0 else fbRead s.fb b r k

/-! ## draw-text -/

/-- draw-text draws each character's footprint at the cursor, clipped pixel by pixel, in the named buffer, and changes
nothing else, for every `x` and `y` (`43_dispatcher.md` R195, `40_framebuffer_render.md` R116, R119, R120). -/
def Obligations.DrawTextDrawsTheFootprints : Prop :=
  ∀ (s : State) (buf x y : Byte) (message : List Byte), s.fbOk → buf.toNat < 2 → message.length ≤ 30 →
    ∃ fb', exec (.drawText buf (x :: y :: message)) s =
        .next { s with fb := fb', status := .ok, trace := .status .ok :: s.trace } ∧
      ∀ (b : BufIx) (X : ColIx) (Y : RowIx), pixel fb' b X Y =
        if b.val = buf.toNat then
          textPixel s.params.glyph y.toNat X.val Y.val x.toNat (message.takeWhile (· != 0)) (pixel s.fb b X Y)
        else pixel s.fb b X Y

/-- A text that starts right of column 119 or below row 6 is answered OK and draws nothing (`40_framebuffer_render.md`
R120, `90_conflicts.md` C2). -/
def Obligations.TextOutsideDrawsNothing : Prop :=
  ∀ (s : State) (buf x y : Byte) (message : List Byte), buf.toNat < 2 → message.length ≤ 30 →
    120 ≤ x.toNat ∨ 7 ≤ y.toNat →
    exec (.drawText buf (x :: y :: message)) s = .next (s.onlyAnswered .ok)

/-- Empty text leaves the buffer unchanged; a space, or a code that is substituted by it, clears the footprint of
`GLYPH[0]` and leaves the pixels outside it unchanged (`40_framebuffer_render.md` R121). -/
def Obligations.EmptyTextAndSpace : Prop :=
  ∀ (s : State) (buf x y : Byte), s.fbOk → buf.toNat < 2 →
    exec (.drawText buf [x, y]) s = .next (s.onlyAnswered .ok) ∧
    exec (.drawText buf [x, y, 0]) s = .next (s.onlyAnswered .ok) ∧
    ∀ c : Byte, c ≠ 0 → c.toNat ≤ 32 ∨ 95 < c.toNat →
      ∃ fb', exec (.drawText buf [x, y, c, 0]) s =
          .next { s with fb := fb', status := .ok, trace := .status .ok :: s.trace } ∧
        ∀ (b : BufIx) (X : ColIx) (Y : RowIx), pixel fb' b X Y =
          if b.val = buf.toNat ∧ x.toNat ≤ X.val ∧ X.val < x.toNat + s.params.glyph.space.w.val ∧
            y.toNat ≤ Y.val ∧ Y.val < y.toNat + s.params.glyph.space.h.val then false
          else pixel s.fb b X Y

/-- A code from 32 to 95 selects the entry `c - 32`, and any other code the space, entry 0; code 0 never reaches the lookup,
since it ends the text; the glyph drawn is the entry selected (`30_encoding.md` R94, `40_framebuffer_render.md` R118). -/
def Obligations.GlyphSelection : Prop :=
  (∀ (t : GlyphTable) (c : Byte),
    (32 ≤ c.toNat → c.toNat ≤ 95 → (glyphIndex c).val = c.toNat - 32) ∧
    (c.toNat < 32 ∨ 95 < c.toNat → glyphIndex c = 0) ∧ glyphOf t c = glyphEntry t (glyphIndex c)) ∧
  ∀ message : List Byte, 0 ∉ textOf message

/-- The cursor never wraps: a text of at most 30 characters carries it to the sum of the advances, at most 7905
(`40_framebuffer_render.md` R122). -/
def Obligations.CursorNeverWraps : Prop :=
  ∀ (t : GlyphTable) (x : Byte) (text : List Byte), text.length ≤ 30 →
    (cursorAfter t (x.setWidth 16) text).toNat = x.toNat + (text.map fun c => (glyphOf t c).adv.toNat).sum ∧
    (cursorAfter t (x.setWidth 16) text).toNat ≤ 7905

/-- A blit is the blit of its clipped rectangle, `w' = min(w, 120 - dx)` and `h' = min(h, 7 - dy)`
(`40_framebuffer_render.md` section 3: R115, an inference the spec marks as its own), whose source rectangle lies inside
the source bitmap where the whole one does. -/
def Obligations.BlitOfClippedRectangle : Prop :=
  ∀ (src : List Byte) (ss sx sy w h : Nat) (hsrc : sourceInside src ss sx sy w h) (b : BufIx) (dx dy : Nat) (m : Memory),
    ∃ hsrc', blit src ss sx sy w h hsrc b dx dy m =
      blit src ss sx sy (if dx < 120 then min w (120 - dx) else 0) (if dy < 7 then min h (7 - dy) else 0) hsrc' b dx dy m

/-- Blit overwrites: with a source rectangle inside its bitmap, inside the clipped rectangle each destination pixel is the
source pixel, set or clear, and every pixel outside it, of either buffer, is as it was (`40_framebuffer_render.md` R116). -/
def Obligations.BlitOverwrites : Prop :=
  ∀ (m : Memory) (src : List Byte) (ss sx sy w h : Nat) (hsrc : sourceInside src ss sx sy w h) (b : BufIx) (dx dy : Nat),
    Memory.wf m = true →
    ∀ (b' : BufIx) (X : ColIx) (Y : RowIx), pixel (blit src ss sx sy w h hsrc b dx dy m) b' X Y =
      if b' = b ∧ dx ≤ X.val ∧ X.val < dx + w ∧ dy ≤ Y.val ∧ Y.val < dy + h then
        getpix src ss (sx + (X.val - dx)) (sy + (Y.val - dy))
      else pixel m b' X Y

/-- A fully set source rectangle of width 3 at `(W - 1, 0)` writes only column `W - 1` (the worked example of
`40_framebuffer_render.md` section 3). -/
def Obligations.BlitAtTheRightEdge : Prop :=
  ∀ (m : Memory) (b : BufIx) (hsrc : sourceInside [0xE0] 1 0 0 3 1), Memory.wf m = true →
    ∀ (b' : BufIx) (r : RowIx) (k : ByteIx), fbRead (blit [0xE0] 1 0 0 3 1 hsrc b 119 0 m) b' r k =
      if b' = b ∧ r = 0 ∧ k = 14 then fbRead m b r k ||| 0x01 else fbRead m b' r k

/-! ## The scroll verbs -/

/-- A scroll with a free slot and a count of at least 1 loads the slot, with `ANIM_KIND` 1 for scroll-left and 2 for
scroll-right, whatever `BUF` is, and changes nothing else (`43_dispatcher.md` R196, R197, `42_animation.md` R161). -/
def Obligations.ScrollStartsOnAFreeSlot : Prop :=
  ∀ (s : State) (buf fpp count : Byte), s.animKind = .none → count ≠ 0 →
    exec (.scrollLeft buf [fpp, count]) s =
      .next { s with
        animKind := .scrollLeft, fpp := fpp, pixRem := count, frameCtr := 0
        status := .ok, trace := .status .ok :: s.trace } ∧
    exec (.scrollRight buf [fpp, count]) s =
      .next { s with
        animKind := .scrollRight, fpp := fpp, pixRem := count, frameCtr := 0
        status := .ok, trace := .status .ok :: s.trace }

/-- A count of 0 starts nothing and is answered OK (`42_animation.md` R161). -/
def Obligations.ScrollOfZeroStartsNothing : Prop :=
  ∀ (s : State) (buf fpp : Byte), s.animKind = .none →
    exec (.scrollLeft buf [fpp, 0]) s = .next (s.onlyAnswered .ok) ∧
    exec (.scrollRight buf [fpp, 0]) s = .next (s.onlyAnswered .ok)

/-- A scroll that finds the slot busy changes nothing and is answered `SLOT_BUSY_STATUS`, in the same direction or the
other (`42_animation.md` R173, `60_exceptions.md` R224). -/
def Obligations.BusyScrollIsIgnored : Prop :=
  ∀ (s : State) (buf fpp count : Byte), s.animKind ≠ .none →
    exec (.scrollLeft buf [fpp, count]) s = .next (s.onlyAnswered s.params.slotBusyStatus) ∧
    exec (.scrollRight buf [fpp, count]) s = .next (s.onlyAnswered s.params.slotBusyStatus)

/-! ## All commands -/

/-- What no verb does: no command writes `ROW`, `FC`, an output line or a parameter, or moves another agent; only
show-buffer writes `DISP`; only the scroll verbs write the slot, and only a free one; no scroll or show-buffer writes the
framebuffer (`43_dispatcher.md` section 3: R201, an inference the spec marks as its own). -/
def Obligations.CommandFrame : Prop :=
  ∀ (i : Instr) (s t : State), exec i s = .next t →
    t.row = s.row ∧ t.fc = s.fc ∧ t.rowsel = s.rowsel ∧ t.serial = s.serial ∧ t.params = s.params ∧
    t.commands = s.commands ∧ t.cPos = s.cPos ∧ t.fPos = s.fPos ∧ t.schedule = s.schedule ∧
    (i.verb ≠ .showBuffer → t.disp = s.disp) ∧
    ((i.verb ≠ .scrollLeft ∧ i.verb ≠ .scrollRight) ∨ s.animKind ≠ .none →
      t.animKind = s.animKind ∧ t.fpp = s.fpp ∧ t.pixRem = s.pixRem ∧ t.frameCtr = s.frameCtr) ∧
    (i.verb = .showBuffer ∨ i.verb = .scrollLeft ∨ i.verb = .scrollRight → t.fb = s.fb)

/-- No command writes a byte of a buffer other than the one its `BUF` names (`20_memory.md` R58). -/
def Obligations.CommandWritesOnlyTheNamedBuffer : Prop :=
  ∀ (i : Instr) (s t : State), s.fbOk → exec i s = .next t →
    ∀ (b : BufIx) (r : RowIx) (k : ByteIx), b.val ≠ i.buf.toNat → fbRead t.fb b r k = fbRead s.fb b r k

/-- A verb does the same thing whatever `ROW` and `FC` are, and, but for the scroll verbs' test of `ANIM_KIND`, whatever the
slot holds: the same status and the same slot kind for a scroll, the same everything for the others (`43_dispatcher.md`
section 3: R202, an inference the spec marks as its own). -/
def Obligations.CommandsIgnoreRefreshAndSlot : Prop :=
  ∀ (i : Instr) (s t : State) (row : RowIx) (fc : Bool) (kind : AnimKind) (ctr fpp rem : Byte), exec i s = .next t →
    exec i { s with row := row, fc := fc } = .next { t with row := row, fc := fc } ∧
    (i.verb ≠ .scrollLeft → i.verb ≠ .scrollRight →
      exec i { s with animKind := kind, frameCtr := ctr, fpp := fpp, pixRem := rem } =
        .next { t with animKind := kind, frameCtr := ctr, fpp := fpp, pixRem := rem }) ∧
    ∃ t', exec i { s with frameCtr := ctr, fpp := fpp, pixRem := rem } = .next t' ∧ t'.status = t.status ∧
      t'.animKind = t.animKind

/-- When the record at the command port decodes to a command and the command is chosen, the step is `exec` of it at the
state without the record and the choice; so it is when no choice is left (`43_dispatcher.md` R190). -/
def Obligations.StepRunsTheDecodedCommand : Prop :=
  ∀ (s : State) (r : Record) (rs : List Record) (i : Instr), s.cPos = none → s.commands = r :: rs →
    decodeRecord s.params.verbMap r = some i →
    (∀ rest, s.schedule = .command :: rest → step s = exec i { s with commands := rs, schedule := rest }) ∧
    (s.schedule = [] → step s = exec i { s with commands := rs })

/-- A command placed by `withFetchWord` is what the next step runs, and it is the one the decoder reads from the same bits
where the machine's codes are the table's. -/
def Obligations.PlacedWordIsRunNext : Prop :=
  ∀ (s : State) (nbits w : Nat) (i : Instr), s.params.verbMap = VerbMap.table → decodeTableWord nbits w = some i →
    step (s.withFetchWord nbits w) = exec i { s with cPos := none }

/-! ## A command in micro-operations -/

/-- set-row, show-buffer, clear-buffer and the scroll verbs, carried out move by move with nothing in between, end in
exactly the state of the whole command, in at most 108 moves (`20_memory.md` R62, `43_dispatcher.md` R191, R200). -/
def Obligations.MovesEqualWholeCommand : Prop :=
  ∀ (s : State) (r : Record) (rs : List Record) (rest : List Choice) (i : Instr), s.cPos = none →
    s.commands = r :: rs → decodeRecord s.params.verbMap r = some i → i.verb ≠ .drawText →
    ∃ n, n ≤ 108 ∧ run n { s with schedule := List.replicate n .commandMove ++ rest } =
      exec i { s with commands := rs, schedule := rest }

/-- draw-text, carried out move by move with nothing in between, ends in exactly the state of the whole command, in at
most 3603 moves (`40_framebuffer_render.md` R114, R117, R119, `43_dispatcher.md` R200). -/
def Obligations.MovesEqualWholeDrawText : Prop :=
  ∀ (s : State) (r : Record) (rs : List Record) (rest : List Choice) (i : Instr), s.cPos = none →
    s.commands = r :: rs → decodeRecord s.params.verbMap r = some i → i.verb = .drawText →
    ∃ n, n ≤ 3603 ∧ run n { s with schedule := List.replicate n .commandMove ++ rest } =
      exec i { s with commands := rs, schedule := rest }

/-- A `TICK` falls inside a command exactly when `CMD_PREEMPTIBLE` is true; when it is false the command goes on and the
tick waits (`20_memory.md` R64). -/
def Obligations.TickInsideACommand : Prop :=
  ∀ (s : State) (p : CPos) (rest : List Choice), s.cPos = some p → s.schedule = .tick :: rest →
    (s.params.cmdPreemptible = true → step s = .next (tick { s with schedule := rest })) ∧
    (s.params.cmdPreemptible = false → ∃ t, step s = .next t ∧ t.row = s.row ∧ t.rowsel = s.rowsel ∧
      t.serial = s.serial ∧ t.schedule = s.schedule)

/-- While a command is in progress no other begins, and the record stays at the port until its `STATUS`, which is given once
and ends it; only reset ends it otherwise (`43_dispatcher.md` section 3, `20_memory.md` section 4). -/
def Obligations.CommandsRunOneAtATime : Prop :=
  ∀ (s t : State) (p : CPos), s.cPos = some p → (∀ rest, s.schedule ≠ .reset :: rest) → step s = .next t →
    (t.cPos ≠ none ∧ t.commands = s.commands ∧ ∀ st, t.trace ≠ .status st :: s.trace) ∨
    (t.cPos = none ∧ t.commands = s.commands.tail ∧ ∃ st, t.trace = .status st :: s.trace)

/-- No micro-operation of `F` falls inside a command: while one is in progress, a choice of `F` moves the command and
waits (`20_memory.md` R65). -/
def Obligations.CommandHoldsOffF : Prop :=
  ∀ (s : State) (p : CPos) (c : Choice) (rest : List Choice), s.cPos = some p → s.schedule = c :: rest →
    c = .step ∨ c = .stepMove →
    ∃ t, step s = .next t ∧ t.fPos = s.fPos ∧ t.fc = s.fc ∧ t.schedule = s.schedule

/-! ## TICK -/

/-- `TICK` (`41_refresh.md` R141, R143): the old line off, `ROW` advanced modulo 7, the 15 bytes of that row of buffer `DISP`
read and serialised bit by bit, most significant first, with one clock pulse each, the new line on, and `FC` set exactly
when `ROW` wrapped from 6 to 0; nothing else changes. -/
def Obligations.TickEffect : Prop :=
  ∀ (s : State) (rest : List Choice), s.schedule = .tick :: rest → s.cPos = none →
    ∃ (rowsel' : Vector Bool 7) (bits : List Bool), step s = .next { s with
          row := nextRow s.row, rowsel := rowsel', serial := bits.foldl sendBit s.serial
          fc := decide (s.row = 6) || s.fc, schedule := rest
          trace := .showRow (nextRow s.row) s.disp (rowBytes s.fb s.disp (nextRow s.row)) :: s.trace } ∧
      (nextRow s.row).val = (s.row.val + 1) % 7 ∧ (nextRow s.row = 0 ↔ s.row = 6) ∧
      (∀ r : RowIx, rowsel'[r.val] =
        if r = nextRow s.row then true else if r = s.row then false else s.rowsel[r.val]) ∧
      bits.length = 120 ∧ ∀ (k : ByteIx) (n : Fin 8),
        bits[8 * k.val + n.val]? = some ((fbRead s.fb s.disp (nextRow s.row) k).getLsbD (7 - n.val))

/-- The bit for column `x` is the `(x+1)`-th of the 120 sent, each with one clock pulse, on which the chain moves one place
and takes the bit in at `SR[0]`; after the last, `SR[119 - x]` is pixel `x` and `SCLK` is 0 (`41_refresh.md` R142 and
`10_state.md` R31, the spec's decisions D19 and D20). -/
def Obligations.SerialisationOrder : Prop :=
  ∀ (l : Serial) (m : Memory) (b : BufIx) (r : RowIx),
    (∃ bits : List Bool, bits.length = 120 ∧ (∀ x : ColIx, bits[x.val]? = some (pixel m b x r)) ∧
      sendRow l (rowBytes m b r) = bits.foldl sendBit l) ∧
    (∀ x : ColIx, (sendRow l (rowBytes m b r)).sr.getLsbD (119 - x.val) = pixel m b x r) ∧
    (sendRow l (rowBytes m b r)).sclk = false ∧
    ∀ (l' : Serial) (p : Bool), (sendBit l' p).sdata = p ∧ (sendBit l' p).sr.getLsbD 0 = p ∧
      ∀ i, i < 119 → (sendBit l' p).sr.getLsbD (i + 1) = l'.sr.getLsbD i

/-- After a `TICK` an LED is lit exactly when it is in the new row and its pixel of the displayed buffer is set
(`10_state.md` R31, `41_refresh.md` R145). -/
def Obligations.LedsShowTheRowRead : Prop :=
  ∀ (s : State) (rest : List Choice), s.DisplayOk → s.schedule = .tick :: rest → s.cPos = none →
    ∃ t, step s = .next t ∧
      ∀ (x : ColIx) (r : RowIx), ledLit t x r = (decide (r = nextRow s.row) && pixel s.fb s.disp x (nextRow s.row))

/-- After `n` ticks from `ROW = r0`, `ROW = (r0 + n) mod 7` and `FC <- 1` has happened `floor((r0 + n) / 7)` times
(`41_refresh.md` R146). -/
def Obligations.FullCycle : Prop :=
  ∀ (n : Nat) (s : State) (rest : List Choice), s.cPos = none → s.schedule = List.replicate n .tick ++ rest →
    ∃ t evs, run n s = .next t ∧ t.row.val = (s.row.val + n) % 7 ∧ t.fc = (s.fc || decide (7 ≤ s.row.val + n)) ∧
      t.schedule = rest ∧ t.trace = evs ++ s.trace ∧ evs.length = n ∧
      evs.countP Obs.wraps = (s.row.val + n) / 7

/-- A show-buffer that completes between two ticks takes effect at the very next tick, whatever `ROW` is
(`41_refresh.md` R147, `70_reset_and_hazards.md` R254). -/
def Obligations.ShowBufferTakesEffectAtTheNextTick : Prop :=
  ∀ (s : State) (r : Record) (rs : List Record) (rest : List Choice) (buf : Byte) (b : BufIx), s.cPos = none →
    s.commands = r :: rs → s.schedule = .command :: .tick :: rest →
    decodeRecord s.params.verbMap r = some (.showBuffer buf []) → buf.toNat = b.val →
    ∃ t, run 2 s = .next t ∧
      t.trace = .showRow (nextRow s.row) b (rowBytes s.fb b (nextRow s.row)) :: .status .ok :: s.trace

/-! ## STEP -/

/-- `F` waits while `FC` is 0: no choice of it changes anything (`42_animation.md` R162, `60_exceptions.md` R234). -/
def Obligations.FWaitsForFc : Prop :=
  ∀ (s : State) (c : Choice) (rest : List Choice), s.cPos = none → s.fPos = .waitFc → s.fc = false →
    s.schedule = c :: rest → c = .step ∨ c = .stepMove → step s = .next { s with schedule := rest }

/-- A `STEP` with an idle slot clears `FC` and changes nothing else (`42_animation.md` R162, R163). -/
def Obligations.StepOfAnIdleSlot : Prop :=
  ∀ (s : State) (rest : List Choice), s.cPos = none → s.fPos = .waitFc → s.fc = true → s.animKind = .none →
    s.schedule = .step :: rest → step s = .next { s with fc := false, schedule := rest }

/-- A pacing `STEP` increments `FRAME_CTR` and shifts nothing (`42_animation.md` R163, R164). -/
def Obligations.PacingStep : Prop :=
  ∀ (s : State) (rest : List Choice), s.cPos = none → s.fPos = .waitFc → s.fc = true → s.animKind ≠ .none →
    s.frameCtr.toNat + 1 < s.fpp.toNat → s.schedule = .step :: rest →
    ∃ c : Byte, c.toNat = s.frameCtr.toNat + 1 ∧ step s = .next { s with fc := false, frameCtr := c, schedule := rest }

/-- A shifting `STEP` moves every row of the displayed buffer one column, resets `FRAME_CTR`, decrements `PIX_REM`, and
frees the slot exactly when `PIX_REM` reaches 0; nothing else changes (`42_animation.md` R163 to R168). -/
def Obligations.ShiftingStep : Prop :=
  ∀ (s : State) (d : Dir) (rest : List Choice), s.fbOk → s.cPos = none → s.fPos = .waitFc → s.fc = true →
    s.animKind = d.kind → s.fpp.toNat ≤ s.frameCtr.toNat + 1 → s.pixRem ≠ 0 → s.schedule = .step :: rest →
    ∃ fb' n', step s = .next { s with
          fc := false, frameCtr := 0, fb := fb', pixRem := n', schedule := rest
          animKind := if s.pixRem = 1 then .none else d.kind } ∧
      n'.toNat = s.pixRem.toNat - 1 ∧
      ∀ (b : BufIx) (x : ColIx) (r : RowIx), pixel fb' b x r =
        if b = s.disp then shiftedBy d 1 (fun x => pixel s.fb b x r) x else pixel s.fb b x r

/-- What `step()` answers: `Idle` exactly when the slot is none, and then nothing changes; `Finished` exactly when it frees
an active slot; `StillActive` otherwise (`42_animation.md` section 3). -/
def Obligations.StepAnswers : Prop :=
  ∀ s : State,
    ((animStep s).1 = .idle ↔ s.animKind = .none) ∧ (s.animKind = .none → (animStep s).2 = s) ∧
    ((animStep s).1 = .finished ↔ s.animKind ≠ .none ∧ (animStep s).2.animKind = .none) ∧
    ((animStep s).1 = .stillActive ↔ (animStep s).2.animKind ≠ .none)

/-- `n` shifts move every row `n` columns, 0 entering; a left shift followed by a right shift clears pixel 0 of every row and
no other, and a right then a left clears pixel 119 (`42_animation.md` section 5: R174, an inference the spec marks as its
own). -/
def Obligations.ManyShifts : Prop :=
  ∀ (m : Memory) (b : BufIx), Memory.wf m = true →
    (∀ (d : Dir) (n : Nat) (b' : BufIx) (x : ColIx) (r : RowIx), pixel ((shiftBuffer d b)^[n] m) b' x r =
      if b' = b then shiftedBy d n (fun x => pixel m b x r) x else pixel m b' x r) ∧
    ∀ (x : ColIx) (r : RowIx),
      pixel (shiftBuffer .right b (shiftBuffer .left b m)) b x r = (decide (x.val ≠ 0) && pixel m b x r) ∧
      pixel (shiftBuffer .left b (shiftBuffer .right b m)) b x r = (decide (x.val ≠ 119) && pixel m b x r)

/-- A scroll started with `fpp` and `count >= 1` performs exactly `count` shifts, one at every `max(fpp, 1)`-th step, and
frees the slot at the end of step number `count * max(fpp, 1)` (`42_animation.md` R171). -/
def Obligations.ScrollRunsToCompletion : Prop :=
  ∀ (s : State) (d : Dir) (buf fpp count : Byte), s.fbOk → s.animKind = .none → count ≠ 0 →
    ∃ s', exec (scrollVerb d buf [fpp, count]) s = .next s' ∧
      ∀ n, n ≤ count.toNat * max fpp.toNat 1 →
        (stepAlone^[n] s').animKind = (if n = count.toNat * max fpp.toNat 1 then .none else d.kind) ∧
        (stepAlone^[n] s').frameCtr.toNat = n % max fpp.toNat 1 ∧
        (stepAlone^[n] s').pixRem.toNat = count.toNat - n / max fpp.toNat 1 ∧
        ∀ (b : BufIx) (x : ColIx) (r : RowIx), pixel (stepAlone^[n] s').fb b x r =
          if b = s.disp then shiftedBy d (n / max fpp.toNat 1) (fun x => pixel s.fb b x r) x else pixel s.fb b x r

/-- `F`'s micro-operations, with nothing in between, end in exactly the state of the whole `STEP`, in at most 220 moves
(`20_memory.md` R62, `42_animation.md` R162, R163, R167). -/
def Obligations.MovesEqualWholeStep : Prop :=
  ∀ (s : State) (rest : List Choice), s.cPos = none → s.fPos = .waitFc → s.fc = true →
    ∃ n, n ≤ 220 ∧ run n { s with schedule := List.replicate n .stepMove ++ rest } =
      .next { takeStep s with schedule := rest }

/-- A `TICK` between `F`'s read of `FC` and its clear gives what it gives before the read (`20_memory.md` R69). -/
def Obligations.TickInsideTheHandOff : Prop :=
  ∀ (s : State) (rest : List Choice), s.cPos = none → s.fPos = .waitFc → s.fc = true →
    run 3 { s with schedule := [.stepMove, .tick, .stepMove] ++ rest } =
      run 3 { s with schedule := [.tick, .stepMove, .stepMove] ++ rest }

/-- A command's write to a byte that `F` has loaded and not yet stored is lost: after the command and the store, the byte
is the old value shifted (`70_reset_and_hazards.md` R256, `20_memory.md` R74). -/
def Obligations.LostUpdate : Prop :=
  ∀ (s : State) (rc : Record) (rs : List Record) (rest : List Choice) (i : Instr) (d : Dir) (b : BufIx) (r : RowIx)
      (k : ByteIx) (c : Bool) (old : Byte), s.fbOk → s.cPos = none → s.fPos = .store d b r k c old →
    s.commands = rc :: rs → s.schedule = .command :: .stepMove :: rest → decodeRecord s.params.verbMap rc = some i →
    ∃ t, run 2 s = .next t ∧ fbRead t.fb b r k = shiftByte d old c

/-! ## The whole machine -/

/-- No step faults, refuses or hangs: every state has a next state (`60_exceptions.md` R222, R234). -/
def Obligations.EveryStepHasANextState : Prop :=
  ∀ s : State, ∃ t, step s = .next t

/-- The memory primitives reach exactly the addresses 0 to 209, and every byte of the framebuffer is at one of them
(`20_memory.md` R51, R58). -/
def Obligations.ExistingAddresses : Prop :=
  (∀ (m : Memory) (a : Nat) (v : Byte), 210 ≤ a →
    memRead m a = .error (.noSuchAddress a) ∧ memWrite m a v = .error (.noSuchAddress a)) ∧
  (∀ (m : Memory) (b : BufIx) (r : RowIx) (k : ByteIx) (v : Byte),
    memRead m (105 * b.val + 15 * r.val + k.val) = .ok (fbRead m b r k) ∧
    memWrite m (105 * b.val + 15 * r.val + k.val) v = .ok (fbWrite m b r k v))

/-- `DISP` is written only by show-buffer, and by reset (`10_state.md` R23). -/
def Obligations.OnlyShowBufferWritesDisp : Prop :=
  ∀ s t : State, step s = .next t → t.disp ≠ s.disp →
    (∃ rest, s.schedule = .reset :: rest) ∨ (∃ b, s.cPos = some (.showBuffer b)) ∨
    (∃ r rs buf p, s.cPos = none ∧ s.commands = r :: rs ∧ decodeRecord s.params.verbMap r = some (.showBuffer buf p))

/-- `ROW` and the output lines change only in a `TICK`, and by reset (`10_state.md` R24, R30). -/
def Obligations.OnlyTickDrivesTheLines : Prop :=
  ∀ s t : State, step s = .next t → t.row ≠ s.row ∨ t.rowsel ≠ s.rowsel ∨ t.serial ≠ s.serial →
    ∃ rest, s.schedule = .tick :: rest ∨ s.schedule = .reset :: rest

/-- `FC` is set only by a `TICK` in which `ROW` wraps, and cleared only by `F` as it takes a `STEP`, and by reset
(`10_state.md` R25). -/
def Obligations.WhoWritesFc : Prop :=
  ∀ s t : State, step s = .next t →
    (s.fc = false → t.fc = true → ∃ rest, s.schedule = .tick :: rest ∧ s.row = 6 ∧ t.row = 0) ∧
    (s.fc = true → t.fc = false →
      (∃ rest, s.schedule = .reset :: rest) ∨ s.fPos = .clearFc ∨
      (s.fPos = .waitFc ∧ ∃ rest, s.schedule = .step :: rest))

/-- An active slot goes to none only by exhausting `PIX_REM` or by reset, and never from one direction to the other
(`42_animation.md` R160, R169). -/
def Obligations.ActiveSlotEndsOnlyByExhaustion : Prop :=
  ∀ s t : State, s.SlotOk → step s = .next t → s.animKind ≠ .none → t.animKind ≠ s.animKind →
    t.animKind = .none ∧ ((∃ rest, s.schedule = .reset :: rest) ∨ t.pixRem = 0)

/-- The glyph table and the other parameters are there from reset and are never written, by reset neither
(`70_reset_and_hazards.md` R251). -/
def Obligations.ParametersNeverChange : Prop :=
  State.reset.params.glyph = Config.glyph ∧ ∀ s t : State, step s = .next t → t.params = s.params

/-- Reset (`70_reset_and_hazards.md` R250, R251, `10_state.md` R36): every register at its reset value, whatever is in
progress abandoned, a dropped command without a status, the parameters as they were. -/
def Obligations.ResetEffect : Prop :=
  ∀ (s : State) (rest : List Choice), s.schedule = .reset :: rest →
    ∃ t, step s = .next t ∧ (∀ b r k, fbRead t.fb b r k = 0) ∧ t.disp = 0 ∧ t.row = 0 ∧ t.fc = false ∧
      t.animKind = .none ∧ t.frameCtr = 0 ∧ t.fpp = 0 ∧ t.pixRem = 0 ∧ (∀ r : RowIx, t.rowsel[r.val] = false) ∧
      t.serial.sdata = false ∧ t.serial.sclk = false ∧ t.cPos = none ∧ t.fPos = .waitFc ∧
      t.trace = .reset :: s.trace ∧ t.params = s.params

/-- Every step keeps the framebuffer in canonical form, at existing addresses only (`20_memory.md` R58). -/
def Obligations.StepKeepsCanonicalFramebuffer : Prop :=
  ∀ s t : State, s.fbOk → step s = .next t → t.fbOk

/-- Every step keeps the outputs in agreement with the observation: at most one line asserted, `ROWSEL[ROW]`, and the LEDs
those of the last `ShowRow` (`41_refresh.md` R144, R145). -/
def Obligations.StepKeepsDisplay : Prop :=
  ∀ s t : State, s.DisplayOk → step s = .next t → t.DisplayOk

/-- Every step, at micro-operation granularity, keeps the invariants of the animation slot (`10_state.md` R28,
`20_memory.md` R70). -/
def Obligations.StepKeepsSlot : Prop :=
  ∀ s t : State, s.SlotOk → step s = .next t → t.SlotOk

/-- Reset meets the invariant. -/
def Obligations.ResetMeetsInvariant : Prop := State.reset.Inv
end

