-- ==== Sys2Proof/Laws/Memory.lean ====
section
/-!
SUPPORT. The laws of the framebuffer memory: a read after a write, and that a write keeps the canonical form, in which
equal memories are equal lists.
-/

namespace Sys2Proof.Machine

/-! ## The canonical form -/

theorem Memory.wfFrom_cons (lo x : Nat) (u : Byte) (m : Memory) :
    Memory.wfFrom lo ((x, u) :: m) = true ↔ lo ≤ x ∧ x < 210 ∧ u ≠ 0 ∧ Memory.wfFrom (x + 1) m = true := by
  simp [Memory.wfFrom, and_assoc]

theorem Memory.wfFrom_mono {lo lo' : Nat} (h : lo' ≤ lo) {m : Memory} (hm : Memory.wfFrom lo m = true) :
    Memory.wfFrom lo' m = true := by
  cases m with
  | nil => rfl
  | cons c m =>
    obtain ⟨x, u⟩ := c
    rw [Memory.wfFrom_cons] at hm ⊢
    exact ⟨by omega, hm.2⟩

theorem Memory.read_below {lo a : Nat} {m : Memory} (hm : Memory.wfFrom lo m = true) (h : a < lo) :
    Memory.read m a = 0 := by
  cases m with
  | nil => rfl
  | cons c m =>
    obtain ⟨x, u⟩ := c
    rw [Memory.wfFrom_cons] at hm
    rw [Memory.read, if_pos (by omega)]

/-- An address that does not exist holds nothing. -/
theorem Memory.read_beyond {lo a : Nat} {m : Memory} (hm : Memory.wfFrom lo m = true) (h : 210 ≤ a) :
    Memory.read m a = 0 := by
  induction m generalizing lo with
  | nil => rfl
  | cons c m ih =>
    obtain ⟨x, u⟩ := c
    rw [Memory.wfFrom_cons] at hm
    rw [Memory.read, if_neg (by omega), if_neg (by omega)]
    exact ih hm.2.2.2

theorem Memory.wfFrom_write {lo a : Nat} {m : Memory} (v : Byte) (hm : Memory.wfFrom lo m = true) (hlo : lo ≤ a)
    (ha : a < 210) : Memory.wfFrom lo (Memory.write m a v) = true := by
  induction m generalizing lo with
  | nil =>
    rw [Memory.write]
    split
    · rfl
    · next hv => exact (Memory.wfFrom_cons ..).2 ⟨hlo, ha, hv, rfl⟩
  | cons c m ih =>
    obtain ⟨x, u⟩ := c
    have hc := (Memory.wfFrom_cons ..).1 hm
    rw [Memory.write]
    split
    · split
      · exact hm
      · next hax hv => exact (Memory.wfFrom_cons ..).2 ⟨hlo, ha, hv, (Memory.wfFrom_cons ..).2 ⟨hax, hc.2⟩⟩
    · split
      · next _ hax =>
        split
        · exact Memory.wfFrom_mono (by omega) hc.2.2.2
        · next hv => exact (Memory.wfFrom_cons ..).2 ⟨hlo, ha, hv, hax ▸ hc.2.2.2⟩
      · exact (Memory.wfFrom_cons ..).2 ⟨hc.1, hc.2.1, hc.2.2.1, ih hc.2.2.2 (by omega)⟩

/-- A write at an address that exists keeps the canonical form. -/
theorem Memory.wf_write {a : Nat} {m : Memory} (v : Byte) (hm : Memory.wf m = true) (ha : a < 210) :
    Memory.wf (Memory.write m a v) = true := Memory.wfFrom_write v hm (Nat.zero_le a) ha

theorem Memory.read_writeFrom {lo a : Nat} {m : Memory} (v : Byte) (a' : Nat) (hm : Memory.wfFrom lo m = true) :
    Memory.read (Memory.write m a v) a' = if a' = a then v else Memory.read m a' := by
  induction m generalizing lo with
  | nil =>
    rw [Memory.write]
    split
    · next hv => simp [Memory.read, hv]
    · simp only [Memory.read]
      repeat' split
      all_goals first | rfl | omega
  | cons c m ih =>
    obtain ⟨x, u⟩ := c
    have hc := (Memory.wfFrom_cons ..).1 hm
    rw [Memory.write]
    split
    · split
      · next hax hv =>
        simp only [Memory.read, hv]
        repeat' split
        all_goals first | rfl | omega
      · simp only [Memory.read]
        repeat' split
        all_goals first | rfl | omega
    · split
      · next _ hax =>
        split
        · next hv =>
          subst hax
          simp only [Memory.read, hv]
          by_cases h : a' = a
          · rw [if_pos h, h, Memory.read_below hc.2.2.2 (by omega)]
          · rw [if_neg h]
            by_cases h' : a' < a
            · rw [if_pos h', Memory.read_below hc.2.2.2 (by omega)]
            · rw [if_neg h', if_neg h]
        · subst hax
          simp only [Memory.read]
          repeat' split
          all_goals first | rfl | omega
      · simp only [Memory.read]
        rw [ih hc.2.2.2]
        repeat' split
        all_goals first | rfl | omega

/-- A read after a write: the value written at the address written, what was there elsewhere. -/
theorem Memory.read_write {a : Nat} {m : Memory} (v : Byte) (a' : Nat) (hm : Memory.wf m = true) :
    Memory.read (Memory.write m a v) a' = if a' = a then v else Memory.read m a' := Memory.read_writeFrom v a' hm

theorem Memory.extFrom {lo : Nat} {m n : Memory} (hm : Memory.wfFrom lo m = true) (hn : Memory.wfFrom lo n = true)
    (h : ∀ a, Memory.read m a = Memory.read n a) : m = n := by
  induction m generalizing lo n with
  | nil =>
    cases n with
    | nil => rfl
    | cons c n =>
      obtain ⟨x, u⟩ := c
      have hc := (Memory.wfFrom_cons ..).1 hn
      have hx := h x
      rw [Memory.read, Memory.read, if_neg (by omega), if_pos rfl] at hx
      exact absurd hx.symm hc.2.2.1
  | cons c m ih =>
    obtain ⟨x, u⟩ := c
    have hc := (Memory.wfFrom_cons ..).1 hm
    cases n with
    | nil =>
      have hx := h x
      rw [Memory.read, Memory.read, if_neg (by omega), if_pos rfl] at hx
      exact absurd hx hc.2.2.1
    | cons e n =>
      obtain ⟨y, w⟩ := e
      have he := (Memory.wfFrom_cons ..).1 hn
      have hxy : x = y := by
        rcases Nat.lt_trichotomy x y with hl | hl | hl
        · have hx := h x
          rw [Memory.read, Memory.read, if_neg (by omega), if_pos rfl, if_pos hl] at hx
          exact absurd hx hc.2.2.1
        · exact hl
        · have hy := h y
          rw [Memory.read, Memory.read, if_pos hl, if_neg (by omega), if_pos rfl] at hy
          exact absurd hy.symm he.2.2.1
      subst hxy
      have hx := h x
      rw [Memory.read, Memory.read, if_neg (by omega), if_pos rfl, if_neg (by omega), if_pos rfl] at hx
      subst hx
      rw [ih hc.2.2.2 he.2.2.2]
      intro a
      by_cases hl : a < x + 1
      · rw [Memory.read_below hc.2.2.2 hl, Memory.read_below he.2.2.2 hl]
      · have ha := h a
        rw [Memory.read, Memory.read, if_neg (by omega), if_neg (by omega), if_neg (by omega), if_neg (by omega)] at ha
        exact ha

/-! ## Framebuffer addresses -/

theorem fbAddr_lt (b : BufIx) (r : RowIx) (k : ByteIx) : fbAddr b r k < 210 := by
  simp only [fbAddr]; omega

theorem fbAddr_inj {b b' : BufIx} {r r' : RowIx} {k k' : ByteIx} :
    fbAddr b r k = fbAddr b' r' k' ↔ b = b' ∧ r = r' ∧ k = k' := by
  simp only [fbAddr, Fin.ext_iff]; omega

/-- Every existing address is a byte of a buffer. -/
theorem fbAddr_surj {a : Nat} (ha : a < 210) : ∃ b r k, fbAddr b r k = a :=
  ⟨⟨a / 105, by omega⟩, ⟨a % 105 / 15, by omega⟩, ⟨a % 105 % 15, by omega⟩, by simp only [fbAddr]; omega⟩

/-- In the canonical form, memories that hold the same 210 bytes are equal. -/
theorem Memory.ext_fbRead {m n : Memory} (hm : Memory.wf m = true) (hn : Memory.wf n = true)
    (h : ∀ b r k, fbRead m b r k = fbRead n b r k) : m = n := by
  refine Memory.extFrom hm hn fun a => ?_
  by_cases ha : a < 210
  · obtain ⟨b, r, k, rfl⟩ := fbAddr_surj ha
    exact h b r k
  · rw [Memory.read_beyond hm (by omega), Memory.read_beyond hn (by omega)]

theorem fbRead_fbWrite {m : Memory} (hm : Memory.wf m = true) (b b' : BufIx) (r r' : RowIx) (k k' : ByteIx) (v : Byte) :
    fbRead (fbWrite m b r k v) b' r' k' = if b' = b ∧ r' = r ∧ k' = k then v else fbRead m b' r' k' := by
  simp only [fbRead, fbWrite, Memory.read_write v _ hm, fbAddr_inj]

theorem wf_fbWrite {m : Memory} (hm : Memory.wf m = true) (b : BufIx) (r : RowIx) (k : ByteIx) (v : Byte) :
    Memory.wf (fbWrite m b r k v) = true := Memory.wf_write v hm (fbAddr_lt b r k)

end Sys2Proof.Machine
end

