-- ==== Sys2Proof/Laws/Framebuffer.lean ====
section
/-!
SUPPORT. What the primitives of `40_framebuffer_render.md` can do to the framebuffer: one reading law each, and that each
keeps the canonical form.
-/

namespace Sys2Proof.Machine

/-! ## Rows and buffers -/

theorem wf_rowWriteFrom {m : Memory} (hm : Memory.wf m = true) (b : BufIx) (row : RowIx) (k : Nat) (vs : List Byte) :
    Memory.wf (rowWriteFrom b row k vs m) = true := by
  induction vs generalizing k m with
  | nil => simpa [rowWriteFrom] using hm
  | cons v vs ih =>
    rw [rowWriteFrom]
    split
    · exact ih (wf_fbWrite hm ..) _
    · exact hm

theorem wf_rowWrite {m : Memory} (hm : Memory.wf m = true) (b : BufIx) (row : RowIx) (vs : List Byte) :
    Memory.wf (rowWrite b row vs m) = true := wf_rowWriteFrom hm b row 0 vs

theorem fbRead_rowWriteFrom {m : Memory} (hm : Memory.wf m = true) (b b' : BufIx) (row r' : RowIx) (k : Nat)
    (vs : List Byte) (k' : ByteIx) :
    fbRead (rowWriteFrom b row k vs m) b' r' k' =
      if b' = b ∧ r' = row ∧ k ≤ k'.val then (vs[k'.val - k]?).getD (fbRead m b' r' k') else fbRead m b' r' k' := by
  induction vs generalizing k m with
  | nil => simp [rowWriteFrom]
  | cons v vs ih =>
    rw [rowWriteFrom]
    split
    · next h =>
      rw [ih (wf_fbWrite hm ..), fbRead_fbWrite hm]
      by_cases hb : b' = b ∧ r' = row
      · obtain ⟨rfl, rfl⟩ := hb
        rcases Nat.lt_trichotomy k k'.val with hk | hk | hk
        · have hne : k' ≠ ⟨k, h⟩ := by intro he; simp [he] at hk
          have hs : k'.val - k = k'.val - (k + 1) + 1 := by omega
          rw [hs, List.getElem?_cons_succ]
          simp [hne, hk, Nat.le_of_lt hk]
        · have he : k' = ⟨k, h⟩ := Fin.ext hk.symm
          subst he
          simp
        · have hne : k' ≠ ⟨k, h⟩ := by intro he; simp [he] at hk
          simp [hne, show ¬ k ≤ k'.val by omega, show ¬ k < k'.val by omega]
      · have h1 : ¬ (b' = b ∧ r' = row ∧ k + 1 ≤ k'.val) := fun h' => hb ⟨h'.1, h'.2.1⟩
        have h2 : ¬ (b' = b ∧ r' = row ∧ k ≤ k'.val) := fun h' => hb ⟨h'.1, h'.2.1⟩
        have h3 : ¬ (b' = b ∧ r' = row ∧ k' = ⟨k, h⟩) := fun h' => hb ⟨h'.1, h'.2.1⟩
        rw [if_neg h1, if_neg h2, if_neg h3]
    · have : ¬ k ≤ k'.val := by omega
      simp [this]

/-- `row_write` (R112): the bytes given, from byte 0 on; every other byte as it was. -/
theorem fbRead_rowWrite {m : Memory} (hm : Memory.wf m = true) (b b' : BufIx) (row r' : RowIx) (vs : List Byte)
    (k' : ByteIx) :
    fbRead (rowWrite b row vs m) b' r' k' =
      if b' = b ∧ r' = row then (vs[k'.val]?).getD (fbRead m b' r' k') else fbRead m b' r' k' := by
  simpa [rowWrite] using fbRead_rowWriteFrom hm b b' row r' 0 vs k'

theorem wf_clearFirst {m : Memory} (hm : Memory.wf m = true) (b : BufIx) {n : Nat} (hn : n ≤ 105) :
    Memory.wf (clearFirst b n m) = true := by
  induction n with
  | zero => simpa [clearFirst] using hm
  | succ n ih => exact Memory.wf_write _ (ih (by omega)) (by omega)

theorem wf_bufferClear {m : Memory} (hm : Memory.wf m = true) (b : BufIx) : Memory.wf (bufferClear b m) = true :=
  wf_clearFirst hm b (Nat.le_refl 105)

theorem read_clearFirst {m : Memory} (hm : Memory.wf m = true) (b : BufIx) {n : Nat} (hn : n ≤ 105) (a : Nat) :
    Memory.read (clearFirst b n m) a = if 105 * b.val ≤ a ∧ a < 105 * b.val + n then 0 else Memory.read m a := by
  induction n with
  | zero => simp [clearFirst]
  | succ n ih =>
    rw [clearFirst, Memory.read_write _ _ (wf_clearFirst hm b (by omega)), ih (by omega)]
    repeat' split
    all_goals first | rfl | omega

/-- `buffer_clear` (R113): every byte of the buffer is 0, and the other buffer is as it was. -/
theorem fbRead_bufferClear {m : Memory} (hm : Memory.wf m = true) (b b' : BufIx) (r : RowIx) (k : ByteIx) :
    fbRead (bufferClear b m) b' r k = if b' = b then 0 else fbRead m b' r k := by
  rw [fbRead, bufferClear, read_clearFirst hm b (Nat.le_refl 105)]
  have : (105 * b.val ≤ fbAddr b' r k ∧ fbAddr b' r k < 105 * b.val + 105) ↔ b' = b := by
    simp only [fbAddr, Fin.ext_iff]; omega
  simp only [this, fbRead]

/-! ## Pixels -/

theorem wf_setpix {m : Memory} (hm : Memory.wf m = true) (b : BufIx) (x : ColIx) (y : RowIx) (p : Bool) :
    Memory.wf (setpix m b x y p) = true := wf_fbWrite hm ..

/-- The bit of column `x'` in a byte into which column `x` was put. -/
theorem getLsbD_putBit (t : Byte) (x : ColIx) (p : Bool) (n : Nat) (hn : n < 8) :
    (putBit t x p).getLsbD n = if n = 7 - x.val % 8 then p else t.getLsbD n := by
  have hx : 7 - x.val % 8 < 8 := by omega
  have key : ∀ (i : Fin 8) (j : Fin 8) (t : Byte) (p : Bool),
      ((t &&& ~~~(1#8 <<< i.val)) ||| (if p then 1#8 <<< i.val else 0)).getLsbD j.val =
        if j = i then p else t.getLsbD j.val := by
    intro i j t p
    have hj : j.val < 8 := j.isLt
    have h1 : (1#8 <<< i.val).getLsbD j.val = decide (j = i) := by revert i j; decide
    generalize 1#8 <<< i.val = w at h1 ⊢
    rw [BitVec.getLsbD_eq_getElem hj] at h1
    by_cases h : j = i
    · subst h; cases p <;> simp [h1]
    · cases p <;> simp [h1, h]
  have := key ⟨7 - x.val % 8, hx⟩ ⟨n, hn⟩ t p
  simpa [putBit, maskOfCol, Fin.ext_iff] using this

/-- `setpix` (R111): one pixel is `p`, and every other pixel is as it was. -/
theorem pixel_setpix {m : Memory} (hm : Memory.wf m = true) (b b' : BufIx) (x x' : ColIx) (y y' : RowIx) (p : Bool) :
    pixel (setpix m b x y p) b' x' y' = if b' = b ∧ x' = x ∧ y' = y then p else pixel m b' x' y' := by
  rw [pixel, setpix, fbRead_fbWrite hm]
  by_cases h : b' = b ∧ y' = y ∧ byteOfCol x' = byteOfCol x
  · obtain ⟨rfl, rfl, hk⟩ := h
    rw [if_pos ⟨rfl, rfl, hk⟩, getLsbD_putBit _ _ _ _ (by omega)]
    have hk' : x'.val / 8 = x.val / 8 := congrArg Fin.val hk
    by_cases hx : x' = x
    · simp [hx]
    · have : ¬ 7 - x'.val % 8 = 7 - x.val % 8 := by
        intro he; apply hx; apply Fin.ext; omega
      rw [if_neg this, if_neg (fun h' => hx h'.2.1), pixel, hk]
  · rw [if_neg h, if_neg (fun h' => h ⟨h'.1, h'.2.2, by rw [h'.2.1]⟩), pixel]

/-- A byte is its eight pixels. -/
theorem fbRead_ext_pixel {m n : Memory} (h : ∀ b x y, pixel m b x y = pixel n b x y) (b : BufIx) (r : RowIx) (k : ByteIx) :
    fbRead m b r k = fbRead n b r k := by
  apply BitVec.eq_of_getLsbD_eq
  intro i hi
  have hx := h b ⟨8 * k.val + (7 - i), by omega⟩ r
  have hk : byteOfCol ⟨8 * k.val + (7 - i), by omega⟩ = k := Fin.ext (by simp only [byteOfCol]; omega)
  have hb : 7 - (8 * k.val + (7 - i)) % 8 = i := by omega
  simpa only [pixel, hk, hb] using hx

theorem wf_putClipped {m : Memory} (hm : Memory.wf m = true) (b : BufIx) (X Y : Nat) (p : Bool) :
    Memory.wf (putClipped m b X Y p) = true := by
  rw [putClipped]
  split
  · exact wf_setpix hm ..
  · exact hm

theorem pixel_putClipped {m : Memory} (hm : Memory.wf m = true) (b b' : BufIx) (X Y : Nat) (p : Bool) (x : ColIx)
    (y : RowIx) :
    pixel (putClipped m b X Y p) b' x y = if b' = b ∧ x.val = X ∧ y.val = Y then p else pixel m b' x y := by
  rw [putClipped]
  split
  · rw [pixel_setpix hm]
    simp only [Fin.ext_iff]
  · next h =>
    have : ¬ (b' = b ∧ x.val = X ∧ y.val = Y) := fun h' => h ⟨by omega, by omega⟩
    rw [if_neg this]

theorem wf_blitRow {m : Memory} (hm : Memory.wf m = true) (src : List Byte) (ss sx sy w : Nat) (b : BufIx) (dx Y : Nat) :
    Memory.wf (blitRow src ss sx sy w b dx Y m) = true := by
  rw [blitRow]
  induction w with
  | zero => simpa using hm
  | succ w ih => rw [List.range_succ, List.foldl_append]; exact wf_putClipped ih ..

theorem pixel_blitRow {m : Memory} (hm : Memory.wf m = true) (src : List Byte) (ss sx sy w : Nat) (b b' : BufIx)
    (dx Y : Nat) (x : ColIx) (y : RowIx) :
    pixel (blitRow src ss sx sy w b dx Y m) b' x y =
      if b' = b ∧ y.val = Y ∧ dx ≤ x.val ∧ x.val < dx + w then getpix src ss (sx + (x.val - dx)) sy
      else pixel m b' x y := by
  induction w with
  | zero =>
    rw [if_neg (by omega)]
    simp [blitRow]
  | succ w ih =>
    have hs : blitRow src ss sx sy (w + 1) b dx Y m =
        putClipped (blitRow src ss sx sy w b dx Y m) b (dx + w) Y (getpix src ss (sx + w) sy) := by
      simp [blitRow, List.range_succ, List.foldl_append]
    rw [hs, pixel_putClipped (wf_blitRow hm ..), ih]
    by_cases hc : b' = b ∧ x.val = dx + w ∧ y.val = Y
    · rw [if_pos hc, if_pos ⟨hc.1, hc.2.2, by omega, by omega⟩]
      congr 2; omega
    · rw [if_neg hc]
      by_cases hd : b' = b ∧ y.val = Y ∧ dx ≤ x.val ∧ x.val < dx + w
      · rw [if_pos hd, if_pos ⟨hd.1, hd.2.1, hd.2.2.1, by omega⟩]
      · rw [if_neg hd, if_neg]
        rintro ⟨h1, h2, h3, h4⟩
        by_cases he : x.val = dx + w
        · exact hc ⟨h1, he, h2⟩
        · exact hd ⟨h1, h2, h3, by omega⟩

theorem wf_blitRows {m : Memory} (hm : Memory.wf m = true) (src : List Byte) (ss sx sy w h : Nat) (b : BufIx)
    (dx dy : Nat) : Memory.wf (blitRows src ss sx sy w h b dx dy m) = true := by
  rw [blitRows]
  induction h with
  | zero => simpa using hm
  | succ h ih => rw [List.range_succ, List.foldl_append]; exact wf_blitRow ih ..

theorem pixel_blitRows {m : Memory} (hm : Memory.wf m = true) (src : List Byte) (ss sx sy w h : Nat) (b b' : BufIx)
    (dx dy : Nat) (x : ColIx) (y : RowIx) :
    pixel (blitRows src ss sx sy w h b dx dy m) b' x y =
      if b' = b ∧ dx ≤ x.val ∧ x.val < dx + w ∧ dy ≤ y.val ∧ y.val < dy + h then
        getpix src ss (sx + (x.val - dx)) (sy + (y.val - dy))
      else pixel m b' x y := by
  induction h with
  | zero =>
    rw [if_neg (by omega)]
    simp [blitRows]
  | succ h ih =>
    have hs : blitRows src ss sx sy w (h + 1) b dx dy m =
        blitRow src ss sx (sy + h) w b dx (dy + h) (blitRows src ss sx sy w h b dx dy m) := by
      simp [blitRows, List.range_succ, List.foldl_append]
    rw [hs, pixel_blitRow (wf_blitRows hm ..), ih]
    by_cases hc : b' = b ∧ y.val = dy + h ∧ dx ≤ x.val ∧ x.val < dx + w
    · rw [if_pos hc, if_pos ⟨hc.1, hc.2.2.1, hc.2.2.2, by omega, by omega⟩]
      congr 1; omega
    · rw [if_neg hc]
      by_cases hd : b' = b ∧ dx ≤ x.val ∧ x.val < dx + w ∧ dy ≤ y.val ∧ y.val < dy + h
      · rw [if_pos hd, if_pos ⟨hd.1, hd.2.1, hd.2.2.1, hd.2.2.2.1, by omega⟩]
      · rw [if_neg hd, if_neg]
        rintro ⟨h1, h2, h3, h4, h5⟩
        by_cases he : y.val = dy + h
        · exact hc ⟨h1, he, h2, h3⟩
        · exact hd ⟨h1, h2, h3, h4, by omega⟩

theorem wf_blit {m : Memory} (hm : Memory.wf m = true) {src : List Byte} {ss sx sy w h : Nat}
    (hsrc : sourceInside src ss sx sy w h) (b : BufIx) (dx dy : Nat) :
    Memory.wf (blit src ss sx sy w h hsrc b dx dy m) = true := wf_blitRows hm ..

/-- `blit` (R114 to R116): the pixels of the clipped rectangle are the source's, and every other pixel is as it was. -/
theorem pixel_blit {m : Memory} (hm : Memory.wf m = true) {src : List Byte} {ss sx sy w h : Nat}
    (hsrc : sourceInside src ss sx sy w h) (b b' : BufIx) (dx dy : Nat) (x : ColIx) (y : RowIx) :
    pixel (blit src ss sx sy w h hsrc b dx dy m) b' x y =
      if b' = b ∧ dx ≤ x.val ∧ x.val < dx + w ∧ dy ≤ y.val ∧ y.val < dy + h then
        getpix src ss (sx + (x.val - dx)) (sy + (y.val - dy))
      else pixel m b' x y := pixel_blitRows hm ..

/-- No read of a blit falls outside the source bitmap (R123): the pixel is in a column of its own row, and its byte is one
of `src`, so the free value is never read. -/
theorem source_index_lt {src : List Byte} {ss sx sy w h i j : Nat} (hsrc : sourceInside src ss sx sy w h) (hi : i < w)
    (hj : j < h) : (sx + i) / 8 < ss ∧ (sx + i) / 8 + (sy + j) * ss < src.length := by
  obtain h0 | h0 | ⟨hx, hy⟩ := hsrc
  · omega
  · omega
  · have hrow : (sy + j + 1) * ss ≤ (sy + h) * ss := Nat.mul_le_mul_right ss (by omega)
    rw [Nat.add_mul, Nat.one_mul] at hrow
    omega

/-! ## Text -/

theorem wf_drawGlyph {m : Memory} (hm : Memory.wf m = true) (g : Glyph) (b : BufIx) (cx : BitVec 16) (y : Byte) :
    Memory.wf (drawGlyph g b cx y m) = true := wf_blit hm ..

theorem wf_drawTextFrom {m : Memory} (hm : Memory.wf m = true) (t : GlyphTable) (b : BufIx) (y : Byte) (cx : BitVec 16)
    (text : List Byte) : Memory.wf (drawTextFrom t b y cx text m) = true := by
  induction text generalizing cx m with
  | nil => simpa [drawTextFrom] using hm
  | cons c cs ih => exact ih (wf_drawGlyph hm ..) _

theorem wf_drawText {m : Memory} (hm : Memory.wf m = true) (t : GlyphTable) (b : BufIx) (x y : Byte) (text : List Byte) :
    Memory.wf (drawText t b x y text m) = true := wf_drawTextFrom hm ..

theorem getpix_glyph (g : Glyph) {i j : Nat} (hi : i < 8) (hj : j < 7) :
    getpix g.bm.toList 1 i j = glyphPixel g i j := by
  have h1 : i / 8 + j * 1 = j := by omega
  have h2 : i % 8 = i := Nat.mod_eq_of_lt hi
  have h3 : j < g.bm.toList.length := by simpa using hj
  rw [getpix, glyphPixel, h1, h2, List.getD_eq_getElem _ _ h3, List.getD_eq_getElem _ _ h3]

/-- One glyph (R119): its footprint holds its bitmap, and every other pixel is as it was. -/
theorem pixel_drawGlyph {m : Memory} (hm : Memory.wf m = true) (g : Glyph) (b b' : BufIx) (cx : BitVec 16) (y : Byte)
    (x : ColIx) (r : RowIx) :
    pixel (drawGlyph g b cx y m) b' x r =
      if b' = b ∧ cx.toNat ≤ x.val ∧ x.val < cx.toNat + g.w.val ∧ y.toNat ≤ r.val ∧ r.val < y.toNat + g.h.val then
        glyphPixel g (x.val - cx.toNat) (r.val - y.toNat)
      else pixel m b' x r := by
  rw [drawGlyph, pixel_blit hm]
  split
  · next h =>
    have := g.w.isLt
    have := g.h.isLt
    rw [Nat.zero_add, Nat.zero_add, getpix_glyph g (by omega) (by omega)]
  · rfl

/-- `draw_text` (R119) from a cursor that the text cannot carry past 16 bits (R122): glyph by glyph in the named buffer,
and the other buffer as it was. -/
theorem pixel_drawTextFrom {m : Memory} (hm : Memory.wf m = true) (t : GlyphTable) (b b' : BufIx) (y : Byte)
    (cx : BitVec 16) (text : List Byte) (hcx : cx.toNat + 255 * text.length < 65536) (x : ColIx) (r : RowIx) :
    pixel (drawTextFrom t b y cx text m) b' x r =
      if b' = b then textPixel t y.toNat x.val r.val cx.toNat text (pixel m b x r) else pixel m b' x r := by
  induction text generalizing cx m with
  | nil => by_cases h : b' = b <;> simp [drawTextFrom, textPixel, h]
  | cons c cs ih =>
    have hadv := (glyphOf t c).adv.isLt
    have hlen : (c :: cs).length = cs.length + 1 := rfl
    have hto : (advance cx (glyphOf t c)).toNat = cx.toNat + (glyphOf t c).adv.toNat := by
      rw [advance, BitVec.toNat_add, BitVec.toNat_setWidth]; omega
    rw [drawTextFrom, ih (wf_drawGlyph hm ..) _ (by omega), hto]
    by_cases h : b' = b
    · subst h
      rw [if_pos rfl, if_pos rfl, textPixel, pixel_drawGlyph hm]
      simp only [true_and]
    · rw [if_neg h, if_neg h, pixel_drawGlyph hm, if_neg (fun h' => h h'.1)]

end Sys2Proof.Machine
end

