-- ==== Sys2Proof/Laws/State.lean ====
section
/-!
SUPPORT. One lemma per field per update of the state, so that no later proof unfolds a record update.
-/

namespace Sys2Proof.Machine

section answer
variable (s : State) (st : Status)
@[simp] theorem answer_fb : (s.answer st).fb = s.fb := rfl
@[simp] theorem answer_disp : (s.answer st).disp = s.disp := rfl
@[simp] theorem answer_row : (s.answer st).row = s.row := rfl
@[simp] theorem answer_fc : (s.answer st).fc = s.fc := rfl
@[simp] theorem answer_animKind : (s.answer st).animKind = s.animKind := rfl
@[simp] theorem answer_frameCtr : (s.answer st).frameCtr = s.frameCtr := rfl
@[simp] theorem answer_fpp : (s.answer st).fpp = s.fpp := rfl
@[simp] theorem answer_pixRem : (s.answer st).pixRem = s.pixRem := rfl
@[simp] theorem answer_rowsel : (s.answer st).rowsel = s.rowsel := rfl
@[simp] theorem answer_serial : (s.answer st).serial = s.serial := rfl
@[simp] theorem answer_status : (s.answer st).status = st := rfl
@[simp] theorem answer_commands : (s.answer st).commands = s.commands := rfl
@[simp] theorem answer_cPos : (s.answer st).cPos = s.cPos := rfl
@[simp] theorem answer_fPos : (s.answer st).fPos = s.fPos := rfl
@[simp] theorem answer_schedule : (s.answer st).schedule = s.schedule := rfl
@[simp] theorem answer_trace : (s.answer st).trace = .status st :: s.trace := rfl
@[simp] theorem answer_params : (s.answer st).params = s.params := rfl
end answer

@[simp] theorem done_eq_answer (s : State) : s.done = s.answer .ok := rfl
@[simp] theorem raiseReject_eq_answer (s : State) (c : Reject) : s.raiseReject c = s.answer .reject := rfl

section releasePort
variable (s : State)
@[simp] theorem releasePort_fb : s.releasePort.fb = s.fb := rfl
@[simp] theorem releasePort_disp : s.releasePort.disp = s.disp := rfl
@[simp] theorem releasePort_row : s.releasePort.row = s.row := rfl
@[simp] theorem releasePort_fc : s.releasePort.fc = s.fc := rfl
@[simp] theorem releasePort_animKind : s.releasePort.animKind = s.animKind := rfl
@[simp] theorem releasePort_frameCtr : s.releasePort.frameCtr = s.frameCtr := rfl
@[simp] theorem releasePort_fpp : s.releasePort.fpp = s.fpp := rfl
@[simp] theorem releasePort_pixRem : s.releasePort.pixRem = s.pixRem := rfl
@[simp] theorem releasePort_rowsel : s.releasePort.rowsel = s.rowsel := rfl
@[simp] theorem releasePort_serial : s.releasePort.serial = s.serial := rfl
@[simp] theorem releasePort_status : s.releasePort.status = s.status := rfl
@[simp] theorem releasePort_commands : s.releasePort.commands = s.commands.tail := rfl
@[simp] theorem releasePort_cPos : s.releasePort.cPos = none := rfl
@[simp] theorem releasePort_fPos : s.releasePort.fPos = s.fPos := rfl
@[simp] theorem releasePort_schedule : s.releasePort.schedule = s.schedule := rfl
@[simp] theorem releasePort_trace : s.releasePort.trace = s.trace := rfl
@[simp] theorem releasePort_params : s.releasePort.params = s.params := rfl
end releasePort

section clearFc
variable (s : State)
@[simp] theorem clearFc_fb : s.clearFc.fb = s.fb := rfl
@[simp] theorem clearFc_disp : s.clearFc.disp = s.disp := rfl
@[simp] theorem clearFc_row : s.clearFc.row = s.row := rfl
@[simp] theorem clearFc_fc : s.clearFc.fc = false := rfl
@[simp] theorem clearFc_animKind : s.clearFc.animKind = s.animKind := rfl
@[simp] theorem clearFc_frameCtr : s.clearFc.frameCtr = s.frameCtr := rfl
@[simp] theorem clearFc_fpp : s.clearFc.fpp = s.fpp := rfl
@[simp] theorem clearFc_pixRem : s.clearFc.pixRem = s.pixRem := rfl
@[simp] theorem clearFc_rowsel : s.clearFc.rowsel = s.rowsel := rfl
@[simp] theorem clearFc_serial : s.clearFc.serial = s.serial := rfl
@[simp] theorem clearFc_status : s.clearFc.status = s.status := rfl
@[simp] theorem clearFc_commands : s.clearFc.commands = s.commands := rfl
@[simp] theorem clearFc_cPos : s.clearFc.cPos = s.cPos := rfl
@[simp] theorem clearFc_fPos : s.clearFc.fPos = s.fPos := rfl
@[simp] theorem clearFc_schedule : s.clearFc.schedule = s.schedule := rfl
@[simp] theorem clearFc_trace : s.clearFc.trace = s.trace := rfl
@[simp] theorem clearFc_params : s.clearFc.params = s.params := rfl
end clearFc

section tick
variable (s : State)
@[simp] theorem tick_fb : (tick s).fb = s.fb := rfl
@[simp] theorem tick_disp : (tick s).disp = s.disp := rfl
@[simp] theorem tick_row : (tick s).row = nextRow s.row := rfl
@[simp] theorem tick_fc : (tick s).fc = raisedFc (nextRow s.row) s.fc := rfl
@[simp] theorem tick_animKind : (tick s).animKind = s.animKind := rfl
@[simp] theorem tick_frameCtr : (tick s).frameCtr = s.frameCtr := rfl
@[simp] theorem tick_fpp : (tick s).fpp = s.fpp := rfl
@[simp] theorem tick_pixRem : (tick s).pixRem = s.pixRem := rfl
@[simp] theorem tick_rowsel :
    (tick s).rowsel = (s.rowsel.set s.row.val false).set (nextRow s.row).val true := rfl
@[simp] theorem tick_serial : (tick s).serial = sendRow s.serial (rowBytes s.fb s.disp (nextRow s.row)) := by
  simp only [tick]
@[simp] theorem tick_status : (tick s).status = s.status := rfl
@[simp] theorem tick_commands : (tick s).commands = s.commands := rfl
@[simp] theorem tick_cPos : (tick s).cPos = s.cPos := rfl
@[simp] theorem tick_fPos : (tick s).fPos = s.fPos := rfl
@[simp] theorem tick_schedule : (tick s).schedule = s.schedule := rfl
@[simp] theorem tick_trace :
    (tick s).trace = .showRow (nextRow s.row) s.disp (rowBytes s.fb s.disp (nextRow s.row)) :: s.trace := rfl
@[simp] theorem tick_params : (tick s).params = s.params := rfl
end tick

section resetBlock
variable (s : State)
@[simp] theorem resetBlock_fb : (resetBlock s).fb = [] := rfl
@[simp] theorem resetBlock_disp : (resetBlock s).disp = 0 := rfl
@[simp] theorem resetBlock_row : (resetBlock s).row = 0 := rfl
@[simp] theorem resetBlock_fc : (resetBlock s).fc = false := rfl
@[simp] theorem resetBlock_animKind : (resetBlock s).animKind = .none := rfl
@[simp] theorem resetBlock_frameCtr : (resetBlock s).frameCtr = 0 := rfl
@[simp] theorem resetBlock_fpp : (resetBlock s).fpp = 0 := rfl
@[simp] theorem resetBlock_pixRem : (resetBlock s).pixRem = 0 := rfl
@[simp] theorem resetBlock_rowsel : (resetBlock s).rowsel = State.reset.rowsel := rfl
@[simp] theorem resetBlock_serial : (resetBlock s).serial = State.reset.serial := rfl
@[simp] theorem resetBlock_status : (resetBlock s).status = State.reset.status := rfl
@[simp] theorem resetBlock_cPos : (resetBlock s).cPos = none := rfl
@[simp] theorem resetBlock_fPos : (resetBlock s).fPos = .waitFc := rfl
@[simp] theorem resetBlock_schedule : (resetBlock s).schedule = s.schedule := rfl
@[simp] theorem resetBlock_trace : (resetBlock s).trace = .reset :: s.trace := rfl
@[simp] theorem resetBlock_params : (resetBlock s).params = s.params := rfl
end resetBlock

end Sys2Proof.Machine
end

