-- ==== Sys2Proof/Laws/Exec.lean ====
section
/-!
SUPPORT. What a whole command can do, said once: every command has a next state, and it is one of five.
-/

namespace Sys2Proof.Machine

/-- What a command leaves of the state: it is only answered, or it writes the framebuffer, or `DISP`, or a free slot. -/
inductive CommandResult (i : Instr) (s : State) : State → Prop where
  | answered (st : Status) : CommandResult i s (s.answer st)
  | wroteFb (fb' : Memory) (hv : i.verb = .setRow ∨ i.verb = .clearBuffer ∨ i.verb = .drawText)
      (hwf : Memory.wf s.fb = true → Memory.wf fb' = true) : CommandResult i s ({ s with fb := fb' }.answer .ok)
  | wroteDisp (b : BufIx) (hv : i.verb = .showBuffer) : CommandResult i s ({ s with disp := b }.answer .ok)
  | started (d : Dir) (fpp count : Byte) (hv : i.verb = .scrollLeft ∨ i.verb = .scrollRight) (hk : s.animKind = .none)
      (hc : count ≠ 0) :
      CommandResult i s
        ({ s with fpp := fpp, pixRem := count, frameCtr := 0, animKind := d.kind }.answer .ok)

theorem scrollCommand_result (i : Instr) (d : Dir) (p : List Byte) (s : State)
    (hv : i.verb = .scrollLeft ∨ i.verb = .scrollRight) : CommandResult i s (scrollCommand d p s) := by
  rw [scrollCommand]
  split
  · exact .answered _
  · next fpp count _ =>
    by_cases hk : s.animKind = .none
    · by_cases hc : count = 0
      · simp only [startScroll, hk, hc, ne_eq, not_true_eq_false, if_false, if_true]
        exact .answered _
      · simp only [startScroll, hk, hc, ne_eq, not_true_eq_false, if_false]
        exact .started d fpp count hv hk hc
    · simp only [startScroll, hk, ne_eq, not_false_eq_true, if_true]
      split <;> exact .answered _

/-- Every command has a next state, and it is one of these. -/
theorem exec_result (i : Instr) (s : State) : ∃ t, exec i s = .next t ∧ CommandResult i s t := by
  cases i with
  | setRow buf p =>
    simp only [exec, execSetRow]
    split
    · exact ⟨_, rfl, .answered _⟩
    · exact ⟨_, rfl, .wroteFb _ (.inl rfl) fun h => wf_rowWrite h ..⟩
  | showBuffer buf p =>
    simp only [exec, execShowBuffer]
    split
    · exact ⟨_, rfl, .answered _⟩
    · exact ⟨_, rfl, .wroteDisp _ rfl⟩
  | clearBuffer buf p =>
    simp only [exec, execClearBuffer]
    split
    · exact ⟨_, rfl, .answered _⟩
    · exact ⟨_, rfl, .wroteFb _ (.inr (.inl rfl)) fun h => wf_bufferClear h ..⟩
  | drawText buf p =>
    simp only [exec, execDrawText]
    split
    · exact ⟨_, rfl, .answered _⟩
    · exact ⟨_, rfl, .wroteFb _ (.inr (.inr rfl)) fun h => wf_drawText h ..⟩
  | scrollLeft buf p => exact ⟨_, rfl, scrollCommand_result _ _ _ _ (.inl rfl)⟩
  | scrollRight buf p => exact ⟨_, rfl, scrollCommand_result _ _ _ _ (.inr rfl)⟩

theorem result_of_exec {i : Instr} {s t : State} (h : exec i s = .next t) : CommandResult i s t := by
  obtain ⟨t', ht', hr⟩ := exec_result i s
  rw [ht'] at h
  cases h
  exact hr

end Sys2Proof.Machine
end

