-- ==== Sys2Proof/Laws/PerInstr.lean ====
section
/-!
SUPPORT. Statements for all commands, made per command: one lemma for each constructor of `Instr`.
-/

namespace Sys2Proof.Laws.EncodedRecord

/-- What the record of a well-formed command looks like on the wire (`30_encoding.md` R80, R81, R93): the verb's code,
`BUF`, `LEN`, and then `LEN` payload bytes. -/
def Statement (i : Instr) : Prop :=
  ∀ m : VerbMap, i.WellFormed →
    (encode m i)[0]? = some (codeOf m i.verb) ∧ (encode m i)[1]? = some i.buf ∧
    ((encode m i)[2]?.map BitVec.toNat) = some i.payload.length ∧ (encode m i).drop 3 = i.payload ∧
    recordOfBytes (encode m i) = some (encodeRecord m i, [])

theorem statement_of (i : Instr) : Statement i := by
  intro m hi
  have hl : i.payload.length ≤ 255 := hi
  have hn : (BitVec.ofNat 8 i.payload.length).toNat = i.payload.length := by
    rw [BitVec.toNat_ofNat, Nat.mod_eq_of_lt (by omega)]
  refine ⟨rfl, rfl, congrArg some hn, rfl, ?_⟩
  simp only [encode, bytesOfRecord, encodeRecord, Record.len, recordOfBytes, hn, Nat.lt_irrefl, if_false,
    List.take_length, List.drop_length]

theorem setRow (buf : Byte) (p : List Byte) : Statement (.setRow buf p) := statement_of _
theorem showBuffer (buf : Byte) (p : List Byte) : Statement (.showBuffer buf p) := statement_of _
theorem clearBuffer (buf : Byte) (p : List Byte) : Statement (.clearBuffer buf p) := statement_of _
theorem drawText (buf : Byte) (p : List Byte) : Statement (.drawText buf p) := statement_of _
theorem scrollLeft (buf : Byte) (p : List Byte) : Statement (.scrollLeft buf p) := statement_of _
theorem scrollRight (buf : Byte) (p : List Byte) : Statement (.scrollRight buf p) := statement_of _

end Sys2Proof.Laws.EncodedRecord
end

