-- ==== Sys2Proof/Laws/Refresh.lean ====
section
/-!
SUPPORT. What serialising a row leaves in the column chain (`10_state.md` R31, `41_refresh.md` R142).
-/

namespace Sys2Proof.Machine

theorem rowBytes_length (m : Memory) (b : BufIx) (r : RowIx) : (rowBytes m b r).length = 15 := rfl

/-- Byte `k` of a row as read by a `TICK`. -/
theorem getElem_rowBytes (m : Memory) (b : BufIx) (r : RowIx) (k : ByteIx) :
    (rowBytes m b r)[k.val]? = some (fbRead m b r k) := by
  have h : ∀ k : ByteIx, bytesAscending[k.val]? = some k := by decide
  rw [rowBytes, List.getElem?_map, h]
  rfl

theorem rowPixel_rowBytes (m : Memory) (b : BufIx) (r : RowIx) (x : ColIx) :
    rowPixel (rowBytes m b r) x = pixel m b x r := by
  have h := getElem_rowBytes m b r (byteOfCol x)
  simp only [byteOfCol] at h
  rw [rowPixel, pixel, List.getD_eq_getElem?_getD, h]
  rfl

/-- The bits of a byte, most significant first. -/
theorem getElem_byteBits (v : Byte) (n : Nat) (hn : n < 8) : (byteBits v)[n]? = some (v.getLsbD (7 - n)) := by
  have : n = 0 ∨ n = 1 ∨ n = 2 ∨ n = 3 ∨ n = 4 ∨ n = 5 ∨ n = 6 ∨ n = 7 := by omega
  rcases this with h | h | h | h | h | h | h | h <;> subst h <;> rfl

theorem byteBits_length (v : Byte) : (byteBits v).length = 8 := rfl

/-- A row has 8 bits for each byte: 120 clock pulses (R142). -/
theorem rowBits_length (d : List Byte) : (rowBits d).length = 8 * d.length := by
  induction d with
  | nil => rfl
  | cons v d ih =>
    have : rowBits (v :: d) = byteBits v ++ rowBits d := by simp [rowBits]
    rw [this, List.length_append, byteBits_length, ih, List.length_cons]
    omega

/-- The bit sent for column `x` is pixel `x` (R142). -/
theorem getElem_rowBits (d : List Byte) (n : Nat) (hn : n < 8 * d.length) :
    (rowBits d)[n]? = some ((d.getD (n / 8) 0).getLsbD (7 - n % 8)) := by
  induction d generalizing n with
  | nil => simp at hn
  | cons v d ih =>
    have hs : rowBits (v :: d) = byteBits v ++ rowBits d := by simp [rowBits]
    rw [hs]
    by_cases h8 : n < 8
    · rw [List.getElem?_append_left (by rw [byteBits_length]; exact h8), getElem_byteBits _ _ h8]
      have h1 : n / 8 = 0 := by omega
      have h2 : n % 8 = n := by omega
      rw [h1, h2]
      rfl
    · have hl : (v :: d).length = d.length + 1 := rfl
      rw [List.getElem?_append_right (by rw [byteBits_length]; omega), byteBits_length, ih _ (by omega)]
      have h1 : n / 8 = (n - 8) / 8 + 1 := by omega
      have h2 : n % 8 = (n - 8) % 8 := by omega
      rw [h1, h2, List.getD_cons_succ]

/-- The chain after a sequence of clock pulses (R31): the last bit sent is `SR[0]`. -/
theorem sr_foldl_sendBit (bits : List Bool) (l : Serial) (i : Nat) (hi : i < 120) :
    (bits.foldl sendBit l).sr.getLsbD i =
      if i < bits.length then bits.getD (bits.length - 1 - i) false else l.sr.getLsbD (i - bits.length) := by
  induction bits generalizing l with
  | nil => simp
  | cons p bits ih =>
    rw [List.foldl_cons, ih]
    have hl : (p :: bits).length = bits.length + 1 := rfl
    by_cases h : i < bits.length
    · have h' : (p :: bits).length - 1 - i = (bits.length - 1 - i) + 1 := by omega
      rw [if_pos h, if_pos (by omega), h', List.getD_cons_succ]
    · rw [if_neg h]
      simp only [sendBit, BitVec.getLsbD_shiftConcat]
      by_cases he : i = bits.length
      · have h0 : (p :: bits).length - 1 - i = 0 := by omega
        rw [if_pos (by omega), h0]
        simp [he]
      · rw [if_neg (by omega)]
        have h2 : i - bits.length < 120 := by omega
        have h3 : i - bits.length - 1 = i - (p :: bits).length := by omega
        rw [if_neg (by omega), h3]
        simp [h2]

/-- After the 120 pulses of one row, `SR[119 - x]` is pixel `x` (R31, R142), whatever the chain held. -/
theorem sr_sendRow (l : Serial) (d : List Byte) (hd : d.length = 15) (x : ColIx) :
    (sendRow l d).sr.getLsbD (119 - x.val) = rowPixel d x := by
  have hlen := rowBits_length d
  have hg := getElem_rowBits d x.val (by omega)
  rw [sendRow, sr_foldl_sendBit _ _ _ (by omega), if_pos (by omega)]
  have hx : (rowBits d).length - 1 - (119 - x.val) = x.val := by omega
  rw [hx, List.getD_eq_getElem?_getD, hg, rowPixel]
  rfl

/-- `SCLK` rests at 0 (R142). -/
theorem sclk_sendRow (l : Serial) (d : List Byte) (h : l.sclk = false) : (sendRow l d).sclk = false := by
  have : ∀ (bits : List Bool) (l : Serial), l.sclk = false → (bits.foldl sendBit l).sclk = false := by
    intro bits
    induction bits with
    | nil => exact fun _ h => h
    | cons p bits ih => exact fun l _ => ih _ rfl
  exact this _ _ h

theorem nextRow_ne (r : RowIx) : nextRow r ≠ r := by revert r; decide

end Sys2Proof.Machine
end

