-- ==== Sys2Proof/Laws/Shift.lean ====
section
/-!
SUPPORT. What a pixel shift does (`42_animation.md` R165 to R167): byte by byte, then as pixels.
-/

namespace Sys2Proof.Machine

theorem wf_shiftBytes {m : Memory} (hm : Memory.wf m = true) (d : Dir) (b : BufIx) (r : RowIx) (ks : List ByteIx)
    (c : Bool) : Memory.wf (shiftBytes d b r ks c m) = true := by
  induction ks generalizing c m with
  | nil => simpa [shiftBytes] using hm
  | cons k ks ih => exact ih (wf_fbWrite hm ..) _

theorem wf_shiftRow {m : Memory} (hm : Memory.wf m = true) (d : Dir) (b : BufIx) (r : RowIx) :
    Memory.wf (shiftRow d b r m) = true := wf_shiftBytes hm ..

theorem wf_shiftRows {m : Memory} (hm : Memory.wf m = true) (d : Dir) (b : BufIx) (rs : List RowIx) :
    Memory.wf (rs.foldl (fun m r => shiftRow d b r m) m) = true := by
  induction rs generalizing m with
  | nil => simpa using hm
  | cons r rs ih => exact ih (wf_shiftRow hm ..)

theorem wf_shiftBuffer {m : Memory} (hm : Memory.wf m = true) (d : Dir) (b : BufIx) :
    Memory.wf (shiftBuffer d b m) = true := wf_shiftRows hm ..

/-- A byte that the shift does not list is as it was. -/
theorem fbRead_shiftBytes_other {m : Memory} (hm : Memory.wf m = true) (d : Dir) (b b' : BufIx) (r r' : RowIx)
    (ks : List ByteIx) (c : Bool) (k' : ByteIx) (h : ¬ (b' = b ∧ r' = r ∧ k' ∈ ks)) :
    fbRead (shiftBytes d b r ks c m) b' r' k' = fbRead m b' r' k' := by
  induction ks generalizing c m with
  | nil => rfl
  | cons k ks ih =>
    rw [shiftBytes, ih (wf_fbWrite hm ..) _ (fun h' => h ⟨h'.1, h'.2.1, List.mem_cons_of_mem _ h'.2.2⟩), fbRead_fbWrite hm,
      if_neg]
    rintro ⟨h1, h2, rfl⟩
    exact h ⟨h1, h2, List.mem_cons_self ..⟩

/-- The byte listed at place `n`: its old value shifted, with the carry of the byte listed before it. -/
theorem fbRead_shiftBytes {m : Memory} (hm : Memory.wf m = true) (d : Dir) (b : BufIx) (r : RowIx) (ks : List ByteIx)
    (hks : ks.Nodup) (c : Bool) (n : Nat) (hn : n < ks.length) :
    fbRead (shiftBytes d b r ks c m) b r ks[n] =
      shiftByte d (fbRead m b r ks[n]) (if _h : n = 0 then c else carryOf d (fbRead m b r (ks[n - 1]'(by omega)))) := by
  induction ks generalizing c m n with
  | nil => simp at hn
  | cons k ks ih =>
    have hk : k ∉ ks := (List.nodup_cons.1 hks).1
    have hwf := wf_fbWrite hm b r k (shiftByte d (fbRead m b r k) c)
    rw [shiftBytes]
    cases n with
    | zero =>
      rw [dif_pos rfl, List.getElem_cons_zero, fbRead_shiftBytes_other hwf _ _ _ _ _ _ _ _ (fun h => hk h.2.2), fbRead_fbWrite hm]
      simp
    | succ n =>
      have hn' : n < ks.length := by simpa using hn
      have hne : ks[n] ≠ k := fun h => hk (h ▸ List.getElem_mem hn')
      rw [List.getElem_cons_succ, ih hwf (List.nodup_cons.1 hks).2 _ _ hn', fbRead_fbWrite hm,
        if_neg (fun h => hne h.2.2), dif_neg (Nat.succ_ne_zero n)]
      cases n with
      | zero => simp
      | succ n =>
        have hne' : ks[n] ≠ k := fun h => hk (h ▸ List.getElem_mem (by omega))
        rw [dif_neg (Nat.succ_ne_zero n)]
        simp only [Nat.add_sub_cancel, List.getElem_cons_succ]
        rw [fbRead_fbWrite hm, if_neg (fun h => hne' h.2.2)]

theorem byteOrder_left (k : ByteIx) : (byteOrder .left)[14 - k.val]'(by simp [byteOrder]; omega) = k := by
  revert k; decide

theorem byteOrder_right (k : ByteIx) : (byteOrder .right)[k.val]'(by simp [byteOrder]) = k := by
  revert k; decide

theorem byteOrder_nodup (d : Dir) : (byteOrder d).Nodup := by cases d <;> decide

/-- A row shifted left, byte by byte (R165). -/
theorem fbRead_shiftRow_left {m : Memory} (hm : Memory.wf m = true) (b : BufIx) (r : RowIx) (k : ByteIx) :
    fbRead (shiftRow .left b r m) b r k =
      shiftByte .left (fbRead m b r k)
        (if h : k.val < 14 then (fbRead m b r ⟨k.val + 1, by omega⟩).getLsbD 7 else false) := by
  have hn : 14 - k.val < (byteOrder .left).length := by simp [byteOrder]; omega
  have h := fbRead_shiftBytes hm .left b r _ (byteOrder_nodup .left) false (14 - k.val) hn
  rw [byteOrder_left] at h
  rw [shiftRow, h]
  by_cases hk : k.val < 14
  · have hp : (byteOrder .left)[14 - k.val - 1]'(by omega) = ⟨k.val + 1, by omega⟩ := by
      have := byteOrder_left ⟨k.val + 1, by omega⟩
      simpa only [Nat.sub_sub] using this
    rw [dif_neg (by omega), dif_pos hk, hp]
    rfl
  · rw [dif_pos (by omega), dif_neg hk]

/-- A row shifted right, byte by byte (R166). -/
theorem fbRead_shiftRow_right {m : Memory} (hm : Memory.wf m = true) (b : BufIx) (r : RowIx) (k : ByteIx) :
    fbRead (shiftRow .right b r m) b r k =
      shiftByte .right (fbRead m b r k)
        (if h : 0 < k.val then (fbRead m b r ⟨k.val - 1, by omega⟩).getLsbD 0 else false) := by
  have hn : k.val < (byteOrder .right).length := by simp [byteOrder]
  have h := fbRead_shiftBytes hm .right b r _ (byteOrder_nodup .right) false k.val hn
  rw [byteOrder_right] at h
  rw [shiftRow, h]
  by_cases hk : 0 < k.val
  · have hp : (byteOrder .right)[k.val - 1]'(by omega) = ⟨k.val - 1, by omega⟩ :=
      byteOrder_right ⟨k.val - 1, by omega⟩
    rw [dif_neg (by omega), dif_pos hk, hp]
    rfl
  · rw [dif_pos (by omega), dif_neg hk]

theorem getLsbD_shiftByte_left (t : Byte) (c : Bool) (n : Nat) (hn : n < 8) :
    (shiftByte .left t c).getLsbD n = if n = 0 then c else t.getLsbD (n - 1) := by
  have h1 : (0x01#8).getLsbD n = decide (n = 0) := by
    revert hn; revert n; decide
  simp only [shiftByte, BitVec.getLsbD_or, BitVec.getLsbD_shiftLeft, hn]
  cases c <;> by_cases h : n = 0 <;> simp_all

theorem getLsbD_shiftByte_right (t : Byte) (c : Bool) (n : Nat) (hn : n < 8) :
    (shiftByte .right t c).getLsbD n = if n = 7 then c else t.getLsbD (n + 1) := by
  have h1 : (0x80#8).getLsbD n = decide (n = 7) := by
    revert hn; revert n; decide
  have h2 : t.getLsbD 8 = false := by simp
  simp only [shiftByte, BitVec.getLsbD_or, BitVec.getLsbD_ushiftRight]
  cases c <;> by_cases h : n = 7 <;> simp_all [Nat.add_comm]

/-- One row shifted (R165, R166): its pixels move one column, 0 enters, and nothing else changes. -/
theorem pixel_shiftRow {m : Memory} (hm : Memory.wf m = true) (d : Dir) (b b' : BufIx) (r r' : RowIx) (x : ColIx) :
    pixel (shiftRow d b r m) b' x r' =
      if b' = b ∧ r' = r then shiftedBy d 1 (fun x => pixel m b x r) x else pixel m b' x r' := by
  by_cases h : b' = b ∧ r' = r
  · obtain ⟨rfl, rfl⟩ := h
    rw [if_pos ⟨rfl, rfl⟩]
    cases d with
    | left =>
      rw [pixel, fbRead_shiftRow_left hm, getLsbD_shiftByte_left _ _ _ (by omega)]
      simp only [shiftedBy]
      by_cases h0 : 7 - x.val % 8 = 0
      · rw [if_pos h0]
        by_cases hx : x.val + 1 < 120
        · have hk : (byteOfCol x).val < 14 := by simp only [byteOfCol]; omega
          have hb : byteOfCol ⟨x.val + 1, hx⟩ = ⟨(byteOfCol x).val + 1, by omega⟩ :=
            Fin.ext (by simp only [byteOfCol]; omega)
          rw [dif_pos hk, dif_pos hx, pixel, hb]
          congr 1
          show 7 = 7 - (x.val + 1) % 8
          omega
        · rw [dif_neg (by simp only [byteOfCol]; omega), dif_neg hx]
      · have hx : x.val + 1 < 120 := by omega
        have hb : byteOfCol ⟨x.val + 1, hx⟩ = byteOfCol x := Fin.ext (by simp only [byteOfCol]; omega)
        rw [if_neg h0, dif_pos hx, pixel, hb]
        congr 1
        show 7 - x.val % 8 - 1 = 7 - (x.val + 1) % 8
        omega
    | right =>
      rw [pixel, fbRead_shiftRow_right hm, getLsbD_shiftByte_right _ _ _ (by omega)]
      simp only [shiftedBy]
      by_cases h0 : 7 - x.val % 8 = 7
      · rw [if_pos h0]
        by_cases hx : 1 ≤ x.val
        · have hk : 0 < (byteOfCol x).val := by simp only [byteOfCol]; omega
          have hb : byteOfCol ⟨x.val - 1, by omega⟩ = ⟨(byteOfCol x).val - 1, by omega⟩ :=
            Fin.ext (by simp only [byteOfCol]; omega)
          rw [dif_pos hk, if_pos hx, pixel, hb]
          congr 1
          show 0 = 7 - (x.val - 1) % 8
          omega
        · rw [dif_neg (by simp only [byteOfCol]; omega), if_neg hx]
      · have hx : 1 ≤ x.val := by omega
        have hb : byteOfCol ⟨x.val - 1, by omega⟩ = byteOfCol x := Fin.ext (by simp only [byteOfCol]; omega)
        rw [if_neg h0, if_pos hx, pixel, hb]
        congr 1
        show 7 - x.val % 8 + 1 = 7 - (x.val - 1) % 8
        omega
  · rw [if_neg h, pixel, shiftRow,
      fbRead_shiftBytes_other hm _ _ _ _ _ _ _ _ (fun h' => h ⟨h'.1, h'.2.1⟩), pixel]

theorem pixel_shiftRows {m : Memory} (hm : Memory.wf m = true) (d : Dir) (b b' : BufIx) (rs : List RowIx)
    (hrs : rs.Nodup) (r' : RowIx) (x : ColIx) :
    pixel (rs.foldl (fun m r => shiftRow d b r m) m) b' x r' =
      if b' = b ∧ r' ∈ rs then shiftedBy d 1 (fun x => pixel m b x r') x else pixel m b' x r' := by
  induction rs generalizing m with
  | nil => simp
  | cons r rs ih =>
    obtain ⟨hr, hrs'⟩ := List.nodup_cons.1 hrs
    rw [List.foldl_cons, ih (wf_shiftRow hm ..) hrs']
    by_cases hb : b' = b
    · subst hb
      by_cases hm' : r' ∈ rs
      · have hne : r' ≠ r := fun h => hr (h ▸ hm')
        rw [if_pos ⟨rfl, hm'⟩, if_pos ⟨rfl, List.mem_cons_of_mem _ hm'⟩]
        congr 1
        funext x'
        rw [pixel_shiftRow hm, if_neg (fun h => hne h.2)]
      · rw [if_neg (fun h => hm' h.2), pixel_shiftRow hm]
        by_cases hre : r' = r
        · subst hre; simp
        · simp [hre, hm']
    · rw [if_neg (fun h => hb h.1), if_neg (fun h => hb h.1), pixel_shiftRow hm, if_neg (fun h => hb h.1)]

/-- `shift_buffer` (R167): every row of the named buffer is shifted one column, and the other buffer is as it was. -/
theorem pixel_shiftBuffer {m : Memory} (hm : Memory.wf m = true) (d : Dir) (b b' : BufIx) (r : RowIx) (x : ColIx) :
    pixel (shiftBuffer d b m) b' x r =
      if b' = b then shiftedBy d 1 (fun x => pixel m b x r) x else pixel m b' x r := by
  have hmem : r ∈ rowsAscending := by revert r; decide
  rw [shiftBuffer, pixel_shiftRows hm _ _ _ _ (by decide)]
  simp [hmem]

end Sys2Proof.Machine
end

