-- ==== Sys2Proof/Laws/Step.lean ====
section
/-!
SUPPORT. What a step can do, said once; every claim about all steps is a case analysis over `StepCase`.
-/

namespace Sys2Proof.Machine

/-- What a step of `s` leaves, each case with what must hold of `s`; `sch` is the schedule left. -/
inductive StepCase (s : State) : State → Prop where
  /-- A `TICK`. -/
  | tick (rest : List Choice) (hs : s.schedule = .tick :: rest) (ha : tickAdmitted s = true) :
      StepCase s (tick { s with schedule := rest })
  /-- Reset. -/
  | reset (rest : List Choice) (hs : s.schedule = .reset :: rest) : StepCase s (resetBlock { s with schedule := rest })
  /-- A move of the command in progress. -/
  | commandMove (p : CPos) (sch : List Choice) (hp : s.cPos = some p) :
      StepCase s (commandMoveAt p { s with schedule := sch })
  /-- The start of the record at the port, to be carried out in moves. -/
  | commandStart (r : Record) (rs : List Record) (sch : List Choice) (hp : s.cPos = none) (hr : s.commands = r :: rs) :
      StepCase s { s with cPos := some (startOfRecord s.params.verbMap r), schedule := sch }
  /-- The record at the port is rejected for its verb. -/
  | unknown (r : Record) (rs : List Record) (sch : List Choice) (hp : s.cPos = none) (hr : s.commands = r :: rs)
      (hd : decodeRecord s.params.verbMap r = none) :
      StepCase s ({ s with commands := rs, schedule := sch }.answer .reject)
  /-- The command of the record at the port, whole. -/
  | command (r : Record) (rs : List Record) (sch : List Choice) (i : Instr) (t : State) (hp : s.cPos = none)
      (hr : s.commands = r :: rs) (hd : decodeRecord s.params.verbMap r = some i)
      (ht : CommandResult i { s with commands := rs, schedule := sch } t) : StepCase s t
  /-- A whole `STEP`. -/
  | wholeStep (rest : List Choice) (hs : s.schedule = .step :: rest) (hp : s.cPos = none) (hf : s.fPos = .waitFc) :
      StepCase s (takeStep { s with schedule := rest })
  /-- A move of `F`. -/
  | stepMove (sch : List Choice) (hp : s.cPos = none) : StepCase s (stepMove { s with schedule := sch })
  /-- Nothing is pending for the agent chosen. -/
  | nothing (sch : List Choice) : StepCase s { s with schedule := sch }

theorem runRecord_case (s : State) (r : Record) (rs : List Record) (sch : List Choice) (hp : s.cPos = none)
    (hr : s.commands = r :: rs) :
    ∃ t, runRecord r { s with commands := rs, schedule := sch } = .next t ∧ StepCase s t := by
  rw [runRecord]
  split
  · next hd => exact ⟨_, rfl, .unknown r rs sch hp hr hd⟩
  · next i hd =>
    obtain ⟨t, ht, hres⟩ := exec_result i { s with commands := rs, schedule := sch }
    exact ⟨t, ht, .command r rs sch i t hp hr hd hres⟩

theorem commandMove_case (s : State) (sch : List Choice) :
    StepCase s (commandMove { s with schedule := sch }) := by
  rw [commandMove]
  split
  · next p hp => exact .commandMove p sch hp
  · next hp =>
    split
    · exact .nothing sch
    · next r rs hr => exact .commandStart r rs sch hp hr

/-- Every state has a next state, and it is one of these. -/
theorem step_case (s : State) : ∃ t, step s = .next t ∧ StepCase s t := by
  have hself : s = { s with schedule := s.schedule } := rfl
  rw [step, act]
  split
  · rw [noChoice]
    split
    · next p hp => exact ⟨_, rfl, hself ▸ .commandMove p s.schedule hp⟩
    · next hp =>
      split
      · next r rs hr => exact runRecord_case s r rs s.schedule hp hr
      · exact ⟨_, rfl, .stepMove s.schedule hp⟩
  · next rest hs =>
    rw [chooseTick]
    split
    · next ha => exact ⟨_, rfl, .tick rest hs ha⟩
    · exact ⟨_, rfl, commandMove_case s s.schedule⟩
  · next rest hs =>
    rw [chooseCommand]
    split
    · next p hp => exact ⟨_, rfl, .commandMove p s.schedule hp⟩
    · next hp =>
      split
      · exact ⟨_, rfl, .nothing rest⟩
      · next r rs hr => exact runRecord_case s r rs rest hp hr
  · next rest hs => exact ⟨_, rfl, commandMove_case s rest⟩
  · next rest hs =>
    rw [chooseStep]
    split
    · next p hp => exact ⟨_, rfl, .commandMove p s.schedule hp⟩
    · next hp =>
      split
      · next hf => exact ⟨_, rfl, .wholeStep rest hs hp hf⟩
      · exact ⟨_, rfl, .stepMove s.schedule hp⟩
  · next rest hs =>
    rw [chooseStepMove]
    split
    · next p hp => exact ⟨_, rfl, .commandMove p s.schedule hp⟩
    · next hp => exact ⟨_, rfl, .stepMove rest hp⟩
  · next rest hs => exact ⟨_, rfl, .reset rest hs⟩

theorem case_of_step {s t : State} (h : step s = .next t) : StepCase s t := by
  obtain ⟨t', ht', hc⟩ := step_case s
  rw [ht'] at h
  cases h
  exact hc

end Sys2Proof.Machine
end

