-- ==== Sys2Proof/Tests/Slice0.lean ====
section
/-!
SUPPORT. The model's own tests. Expected values are those of `95_test_vectors.md`, whose vector each test names; the glyph
table is its fixture (section 2), invented for testing. Then, for every statement that has hypotheses, a witness that
meets them all.
-/

open Sys2Proof Sys2Proof.Machine

namespace Sys2Proof.Tests

/-! ## Helpers -/

/-- The shape of 58 of the fixture's entries, the space's own among them. -/
def blankGlyph : Glyph := { bm := #v[0, 0, 0, 0, 0, 0, 0], w := 5, h := 7, adv := 6 }

/-- The fixture of section 2: `!`, `#`, `A`, `B` and `_` apart, every entry is blank. -/
def fixture : GlyphTable :=
  { space := { w := 5, h := 7, adv := 6 }
    others := ((((((Vector.replicate 63 blankGlyph).set 0
      { bm := #v[0x80, 0x80, 0x80, 0x80, 0x80, 0x00, 0x80], w := 1, h := 7, adv := 2 }).set 2
      { bm := #v[0xFF, 0xFF, 0xFF, 0xFF, 0xFF, 0xFF, 0xFF], w := 8, h := 7, adv := 8 }).set 32
      { bm := #v[0x70, 0x88, 0x88, 0xF8, 0x88, 0x88, 0x88], w := 5, h := 7, adv := 6 }).set 33
      { bm := #v[0xF0, 0x88, 0x88, 0xF0, 0x88, 0x88, 0xF0], w := 5, h := 7, adv := 6 }).set 62
      { bm := #v[0x00, 0x00, 0x00, 0x00, 0x00, 0x00, 0xF8], w := 5, h := 7, adv := 6 }) }

/-- Parameters for tests: the fixture, and the spec's defaults. -/
def testParams : Params :=
  { glyph := fixture, tickPeriod := 1, slotBusyStatus := .ok, cmdPreemptible := true, rowselActive := true,
    row0IsTop := true, verbMap := VerbMap.table }

/-- The reset state of R36 with the test parameters. -/
def base : State := { State.reset with params := testParams }

/-- The next state of an outcome, if it is one. -/
def next? : Host.Outcome State Fault Refusal → Option State
  | .next s => some s
  | .fault _ => none
  | .refused _ => none

/-- What a command leaves of the state, read through `f`. -/
def after {α : Type} (i : Instr) (s : State) (f : State → α) : Option α := (next? (exec i s)).map f

/-- What one step leaves of the state, read through `f`. -/
def stepped {α : Type} (s : State) (f : State → α) : Option α := (next? (step s)).map f

/-- A row: the bytes given, then zeros. -/
def rowOfBytes (b : BufIx) (r : RowIx) (vs : List Byte) (m : Memory) : Memory := rowWrite b r vs m

/-- The slot as numbers: `ANIM_KIND`, `FPP`, `PIX_REM`, `FRAME_CTR`. -/
def slot (s : State) : Nat × Nat × Nat × Nat := (s.animKind.code.toNat, s.fpp.toNat, s.pixRem.toNat, s.frameCtr.toNat)

/-- A busy slot: the start of vectors A6 and A7. -/
def busy : State := { base with animKind := .scrollLeft, fpp := 2, pixRem := 4, frameCtr := 1 }

/-- A record at the command port, to be carried out whole next. -/
def atPort (s : State) (r : Record) : State := { s with commands := [r], schedule := [.command] }

/-! ## Well-formedness: ill-formed terms are refused -/

theorem test_payload_of_256_bytes_is_no_record :
    ¬ (Record.WellFormed { verb := 0, buf := 0, payload := List.replicate 256 0 }) := by
  simp only [Record.WellFormed, List.length_replicate]; omega

theorem test_payload_of_256_bytes_is_no_instruction : ¬ (Instr.drawText 0 (List.replicate 256 0)).WellFormed := by
  simp only [Instr.WellFormed, Instr.payload, List.length_replicate]; omega

theorem test_payload_of_255_bytes_is_well_formed : (Instr.drawText 0 (List.replicate 255 0)).WellFormed := by
  simp only [Instr.WellFormed, Instr.payload, List.length_replicate]; omega

/-! ## Decoding: the words of section 3.1, header in bits 23 to 0, payload bytes above -/

theorem test_decode_D1_set_row :
    decodeTableWord 64 0x1824428103_000105 = some (.setRow 1 [0x03, 0x81, 0x42, 0x24, 0x18]) := by decide

theorem test_decode_D4_show_buffer : decodeTableWord 24 0x010100 = some (.showBuffer 1 []) := by decide

theorem test_decode_D5_clear_buffer : decodeTableWord 24 0x020000 = some (.clearBuffer 0 []) := by decide

theorem test_decode_D6_draw_text :
    decodeTableWord 64 0x0042410003_030005 = some (.drawText 0 [0x03, 0x00, 0x41, 0x42, 0x00]) := by decide

theorem test_decode_D13_scroll_left : decodeTableWord 40 0x0502_040002 = some (.scrollLeft 0 [0x02, 0x05]) := by decide

theorem test_decode_D14_scroll_right : decodeTableWord 40 0x7801_050002 = some (.scrollRight 0 [0x01, 0x78]) := by decide

theorem test_decode_D15_stray_buffer : decodeTableWord 40 0xFF00_04FF02 = some (.scrollLeft 0xFF [0x00, 0xFF]) := by decide

/-- X18 and X19: the first and the last reserved code. -/
theorem test_decode_reserved_codes :
    decodeTableWord 24 0x060000 = none ∧ decodeTableWord 40 0x0101_FF0002 = none := by decide

/-- Bits from `nbits` up are 0: operand bytes of zeros. -/
theorem test_decode_operands_beyond_the_word : decodeTableWord 24 0xFFFF_030002 = some (.drawText 0 [0, 0]) := by decide

theorem test_decode_bytes_keeps_what_follows :
    decode VerbMap.table [0x01, 0x01, 0x00, 0x02, 0x00, 0x00] = .ok (.showBuffer 1 [], [0x02, 0x00, 0x00]) := rfl

theorem test_decode_truncated : decode VerbMap.table [0x04, 0x00, 0x02, 0x02] = .error .truncated := rfl

/-- D1's record, from the encoder. -/
theorem test_encode_D1 :
    encode VerbMap.table (.setRow 1 [0x03, 0x81, 0x42, 0x24, 0x18]) = [0x00, 0x01, 0x05, 0x03, 0x81, 0x42, 0x24, 0x18] := by
  decide

theorem test_header_of_D11 :
    headerOf { verb := 0x03, buf := 0x00, payload := 0 :: 0 :: List.replicate 30 0x23 } = 0x030020 := by decide

/-! ## The checks: section 3.2 -/

/-- X1, X3, X5, X6. -/
theorem test_causes_set_row :
    causeOf (.setRow 2 [0x00, 0xFF]) = some .badBuffer ∧ causeOf (.setRow 0 [0x07, 0xFF]) = some .badRow ∧
    causeOf (.setRow 0 (0x00 :: List.replicate 16 0xAA)) = some .oversizePayload ∧
    causeOf (.setRow 0 []) = some .shortPayload := by decide

/-- X7 to X10. -/
theorem test_causes_bare_buffer :
    causeOf (.showBuffer 2 []) = some .badBuffer ∧ causeOf (.showBuffer 0 [0x00]) = some .oversizePayload ∧
    causeOf (.clearBuffer 2 []) = some .badBuffer ∧ causeOf (.clearBuffer 1 [0x00]) = some .oversizePayload := by decide

/-- X11 to X17. -/
theorem test_causes_text_and_scroll :
    causeOf (.drawText 2 [0x00, 0x00, 0x00]) = some .badBuffer ∧ causeOf (.drawText 0 [0x00]) = some .shortPayload ∧
    causeOf (.drawText 0 []) = some .shortPayload ∧
    causeOf (.drawText 0 (0x00 :: 0x00 :: List.replicate 31 0x41)) = some .oversizePayload ∧
    causeOf (.scrollLeft 0 [0x02]) = some .shortPayload ∧ causeOf (.scrollLeft 0 [0x02, 0x05, 0x00]) = some .oversizePayload ∧
    causeOf (.scrollRight 0 []) = some .shortPayload := by decide

/-- The longest legal records, D2 and D11. -/
theorem test_longest_records_have_no_cause :
    causeOf (.setRow 0 (0x06 :: List.replicate 15 0xFF)) = none ∧
    causeOf (.drawText 0 (0x00 :: 0x00 :: List.replicate 30 0x23)) = none := by decide

/-- Section 3.4. -/
theorem test_glyph_index :
    [0x20, 0x21, 0x41, 0x5F, 0x60, 0x61, 0x1F, 0x01, 0x7F, 0x80, 0xFF].map (fun c => (glyphIndex c).val) =
      [0, 1, 33, 63, 0, 0, 0, 0, 0, 0, 0] := by decide

/-! ## Commands: at most two tests each -/

/-- S1. -/
theorem test_set_row_S1 :
    after (.setRow 1 [0x03, 0x81, 0x42, 0x24, 0x18]) base (fun s => (s.fb, s.status)) =
      some ([(150, 0x81), (151, 0x42), (152, 0x24), (153, 0x18)], .ok) := by decide

/-- S2: bytes 2 to 14 are kept. -/
theorem test_set_row_S2 :
    after (.setRow 0 [0x03, 0x12, 0x34]) { base with fb := rowOfBytes 0 3 (List.replicate 15 0xFF) [] }
      (fun s => rowBytes s.fb 0 3) = some ([0x12, 0x34] ++ List.replicate 13 0xFF) := by decide

/-- V1. -/
theorem test_show_buffer_V1 : after (.showBuffer 1 []) base (fun s => (s.disp, s.fb, s.status)) = some (1, [], .ok) := by
  decide

/-- V4. -/
theorem test_show_buffer_V4 :
    after (.showBuffer 2 []) { base with disp := 1 } (fun s => (s.disp, s.status)) = some (1, .reject) := by decide

/-- K1 on one row of each buffer: the last bytes of buffer 0, the first of buffer 1. -/
theorem test_clear_buffer_K1 :
    after (.clearBuffer 0 []) { base with fb := rowOfBytes 0 6 (List.replicate 15 0xFF) (rowOfBytes 1 0 [0xFF] []) }
      (fun s => (s.fb, s.status)) = some ([(105, 0xFF)], .ok) := by decide

/-- K3: the slot goes on. -/
theorem test_clear_buffer_K3 :
    after (.clearBuffer 0 []) { base with animKind := .scrollLeft, fpp := 3, pixRem := 9, frameCtr := 2 } slot =
      some (1, 3, 9, 2) := by decide

/-- T6: clipped at the right edge, and no wrap to the left. -/
theorem test_draw_text_T6 :
    after (.drawText 0 [0x74, 0x00, 0x41, 0x42, 0x00]) base (fun s => (s.fb, s.status)) =
      some ([(14, 0x07), (29, 0x08), (44, 0x08), (59, 0x0F), (74, 0x08), (89, 0x08), (104, 0x08)], .ok) := by decide

/-- T3: a space clears its footprint, clipped at the bottom. -/
theorem test_draw_text_T3 :
    after (.drawText 0 [0x05, 0x04, 0x20, 0x00])
      { base with fb := rowOfBytes 0 3 [0xFF, 0xFF] (rowOfBytes 0 4 [0xFF, 0xFF] (rowOfBytes 0 6 [0xFF, 0xFF] [])) }
      (fun s => ((rowBytes s.fb 0 3).take 2, (rowBytes s.fb 0 4).take 2, (rowBytes s.fb 0 6).take 2)) =
      some ([0xFF, 0xFF], [0xF8, 0x3F], [0xF8, 0x3F]) := by decide

/-- The cursor of T8: 274, past a byte. -/
theorem test_cursor_T8 : (cursorAfter fixture 250 [0x41, 0x41, 0x41, 0x41]).toNat = 274 := by decide

/-- The start of A1. -/
theorem test_scroll_left_A1 :
    after (.scrollLeft 0 [0x02, 0x05]) base (fun s => (slot s, s.status)) = some ((1, 2, 5, 0), .ok) := by decide

/-- A7: a busy slot is left alone. -/
theorem test_scroll_left_A7 :
    after (.scrollLeft 0 [0x09, 0x09]) busy (fun s => (slot s, s.status)) = some ((1, 2, 4, 1), .ok) := by decide

/-- A4's last step, on D14's operands. -/
theorem test_scroll_right_D14 :
    after (.scrollRight 0 [0x01, 0x78]) base (fun s => (slot s, s.status)) = some ((2, 1, 120, 0), .ok) := by decide

/-- A6 with `SLOT_BUSY_STATUS = REJECT`. -/
theorem test_scroll_right_A6 :
    after (.scrollRight 0 [0x09, 0x09]) { busy with params := { testParams with slotBusyStatus := .reject } }
      (fun s => (slot s, s.status)) = some ((1, 2, 4, 1), .reject) := by decide

/-! ## Pixels and blit -/

/-- Section 4.1: the four `getpix` values. -/
theorem test_getpix :
    (getpix [0x70] 1 1 0, getpix [0x70] 1 0 0, getpix [0xA5, 0xC3, 0x5A, 0x3C] 2 9 1,
      getpix [0xA5, 0xC3, 0x5A, 0x3C] 2 10 1) = (true, false, false, true) := by decide

/-- Section 4.1: the four `setpix` bytes. -/
theorem test_setpix_bytes :
    (putBit 0x00 119 true, putBit 0xFF 0 false, putBit 0x5A 60 true, putBit 0x5A 61 true) = (0x01, 0x7F, 0x5A, 0x5E) := by
  decide

/-- M5 to M8. -/
theorem test_addresses : (fbAddr 0 6 14, fbAddr 1 6 14, fbAddr 1 0 0, fbAddr 1 3 7) = (104, 209, 105, 157) := by decide

/-- B1. -/
theorem test_blit_B1 : blit [0xE0] 1 0 0 3 1 (by decide) 0 119 0 [] = [(14, 0x01)] := by decide

/-- B2: clipped in X and in Y. -/
theorem test_blit_B2 : blit [0xFF, 0xFF, 0xFF, 0xFF] 2 4 0 10 2 (by decide) 0 115 6 [] = [(104, 0x1F)] := by decide

/-- R123's precondition: a rectangle past the last column of its bitmap, or past its last row, is refused, B4's empty ones
are not. -/
theorem test_source_inside :
    ¬ sourceInside [0x00, 0xFF] 1 0 0 16 1 ∧ ¬ sourceInside [0x00, 0xFF] 1 0 0 8 3 ∧ sourceInside [0x00, 0xFF] 1 0 0 8 2 ∧
    sourceInside [] 0 0 0 0 5 ∧ sourceInside [] 0 0 0 5 0 := by decide

/-! ## TICK -/

set_option maxRecDepth 8000 in
/-- K1t. -/
theorem test_tick_K1t :
    stepped { base with
        row := 6, disp := 1, schedule := [.tick], rowsel := #v[false, false, false, false, false, false, true]
        fb := [(105, 0x80), (119, 0x01)] }
      (fun s => (s.row, s.fc, s.rowsel, s.serial.sr)) =
      some ((0 : RowIx), true, #v[true, false, false, false, false, false, false], (1 : BitVec 120) <<< 119 ||| 1) := by decide

/-- K2t: the first row shown after reset is row 1. -/
theorem test_tick_K2t :
    stepped { base with schedule := [.tick] } (fun s => (s.row, s.fc, s.trace)) =
      some (1, false, [.showRow 1 0 (List.replicate 15 0)]) := by decide

/-! ## Pixel shifts and STEP -/

/-- H8 to the left. -/
theorem test_shift_H8_left :
    shiftRow .left 0 0 [(0, 0xA5), (1, 0x3C), (14, 0x81)] = [(0, 0x4A), (1, 0x78), (13, 0x01), (14, 0x02)] := by decide

/-- H8 to the right. -/
theorem test_shift_H8_right :
    shiftRow .right 0 0 [(0, 0xA5), (1, 0x3C), (14, 0x81)] = [(0, 0x52), (1, 0x9E), (14, 0x40)] := by decide

/-- H6 and H7: the carry crosses a byte. -/
theorem test_shift_H6_H7 :
    (shiftRow .left 0 0 [(1, 0x80)], shiftRow .right 0 0 [(0, 0x01)]) = ([(0, 0x01)], [(1, 0x80)]) := by decide

/-- A1, `step()` number 1: a pacing step. -/
theorem test_step_A1_first :
    stepped { base with fc := true, animKind := .scrollLeft, fpp := 2, pixRem := 5, fb := [(14, 0x81)], schedule := [.step] }
      (fun s => (slot s, s.fc, s.fb)) = some ((1, 2, 5, 1), false, [(14, 0x81)]) := by decide

set_option maxRecDepth 8000 in
/-- A1, `step()` number 10: the last shift. -/
theorem test_step_A1_last :
    stepped { base with
        fc := true, animKind := .scrollLeft, fpp := 2, pixRem := 1, frameCtr := 1, fb := [(14, 0x81)], schedule := [.step] }
      (fun s => (slot s, s.fc, s.fb)) = some ((0, 2, 0, 0), false, [(13, 0x01), (14, 0x02)]) := by decide

/-! ## The machine -/

/-- A command placed as the host places it (V1). -/
theorem test_placed_word_runs : stepped (base.withFetchWord 24 0x010100) (fun s => (s.disp, s.status)) = some (1, .ok) := by
  decide

/-- X18 at the port. -/
theorem test_unknown_verb_X18 :
    stepped (atPort base { verb := 0x06, buf := 0, payload := [] }) (fun s => (s.status, s.fb, slot s)) =
      some (.reject, [], (0, 0, 0, 0)) := by decide

/-- R250: reset drops the command in progress, with no status. -/
theorem test_reset_drops_the_command :
    stepped { busy with
        fb := [(3, 0xFF)], cPos := some (.clearBuffer 0 3), schedule := [.reset]
        commands := [{ verb := 0x02, buf := 0, payload := [] }] }
      (fun s => (s.fb, s.cPos, s.commands, s.trace)) = some ([], none, [], [.reset]) := by decide

/-! ## Witnesses: one state and operands for the hypotheses of each statement that has some -/

theorem witness_DecodeOfEncode :
    VerbMap.table.distinct ∧ (Instr.drawText 1 (List.replicate 255 0x41)).WellFormed :=
  ⟨by decide, by simp only [Instr.WellFormed, Instr.payload, List.length_replicate]; omega⟩

/-- A map other than the table's. -/
theorem witness_DecodeOfEncode_other_map :
    VerbMap.distinct { setRow := 5, showBuffer := 4, clearBuffer := 3, drawText := 2, scrollLeft := 1, scrollRight := 0xFF } := by
  decide

theorem witness_EncodeOfDecode :
    decode VerbMap.table [0x04, 0x00, 0x02, 0x02, 0x05, 0x01] = .ok (.scrollLeft 0 [0x02, 0x05], [0x01]) := rfl

theorem witness_HeaderWordFields :
    Record.WellFormed { verb := 0x03, buf := 0xFF, payload := List.replicate 255 0 } := by
  simp only [Record.WellFormed, List.length_replicate]; omega

/-- A cause for each verb, and a busy slot whose status is `REJECT`. -/
theorem witness_EveryCommandIsAnsweredOnce :
    causeOf (.setRow 2 [0, 0]) ≠ none ∧ causeOf (.showBuffer 2 []) ≠ none ∧ causeOf (.clearBuffer 0 [0]) ≠ none ∧
    causeOf (.drawText 0 [0]) ≠ none ∧ causeOf (.scrollLeft 0 [1]) ≠ none ∧ causeOf (.scrollRight 0 [1, 1, 1]) ≠ none ∧
    after (.scrollLeft 0 [1, 1]) { busy with params := { testParams with slotBusyStatus := .reject } } State.status =
      some .reject := by decide

theorem witness_IllegalLengthIsRejected :
    ¬ legalLen (.setRow 0 []) 0 ∧ ¬ legalLen (.setRow 0 []) 17 ∧ ¬ legalLen (.showBuffer 0 []) 1 ∧
    ¬ legalLen (.clearBuffer 0 []) 1 ∧ ¬ legalLen (.drawText 0 []) 1 ∧ ¬ legalLen (.drawText 0 []) 33 ∧
    ¬ legalLen (.scrollLeft 0 []) 1 ∧ ¬ legalLen (.scrollLeft 0 []) 3 ∧ ¬ legalLen (.scrollRight 0 []) 1 ∧
    ¬ legalLen (.scrollRight 0 []) 3 := by
  simp only [legalLen]; omega

theorem witness_UnknownVerbIsRejected :
    ∃ (s : State) (r : Record), s.schedule = [.command] ∧ s.cPos = none ∧ s.commands = [r] ∧
      decodeRecord s.params.verbMap r = none ∧ 6 ≤ r.verb.toNat :=
  ⟨atPort base { verb := 0x06, buf := 0, payload := [] }, _, rfl, rfl, rfl, by decide, by decide⟩

theorem witness_SetRowWritesTheBytesGiven :
    base.fbOk ∧ (1 : Byte).toNat < 2 ∧ (6 : Byte).toNat < 7 ∧ (List.replicate 15 (0xFF : Byte)).length ≤ 15 := by decide

theorem witness_ShowBufferWritesDisp :
    (0 : Byte).toNat = (0 : BufIx).val ∧ (1 : Byte).toNat = (1 : BufIx).val := by decide

theorem witness_ClearBufferZeroesTheBuffer : busy.fbOk ∧ (0 : Byte).toNat < 2 ∧ (1 : Byte).toNat < 2 := by decide

theorem witness_DrawTextDrawsTheFootprints :
    base.fbOk ∧ (1 : Byte).toNat < 2 ∧ (List.replicate 30 (0x23 : Byte)).length ≤ 30 := by decide

theorem witness_TextOutsideDrawsNothing :
    (1 : Byte).toNat < 2 ∧ (List.replicate 30 (0x23 : Byte)).length ≤ 30 ∧ 120 ≤ (0x78 : Byte).toNat ∧
      7 ≤ (0x07 : Byte).toNat := by decide

theorem witness_EmptyTextAndSpace :
    base.fbOk ∧ (1 : Byte).toNat < 2 ∧ (0x20 : Byte) ≠ 0 ∧ (0x20 : Byte).toNat ≤ 32 ∧ (0x01 : Byte) ≠ 0 ∧
      (0x01 : Byte).toNat ≤ 32 ∧ (0x60 : Byte) ≠ 0 ∧ 95 < (0x60 : Byte).toNat := by decide

theorem witness_GlyphSelection :
    (32 ≤ (0x20 : Byte).toNat ∧ (0x20 : Byte).toNat ≤ 95) ∧ (32 ≤ (0x5F : Byte).toNat ∧ (0x5F : Byte).toNat ≤ 95) ∧
      (0x1F : Byte).toNat < 32 ∧ 95 < (0x60 : Byte).toNat := by decide

theorem witness_CursorNeverWraps : (List.replicate 30 (0x41 : Byte)).length ≤ 30 := by decide

/-- A source rectangle up to the last column and row of its bitmap. -/
theorem witness_BlitOfClippedRectangle : sourceInside [0xA5, 0xC3, 0x5A, 0x3C] 2 3 0 13 2 := by decide

theorem witness_BlitOverwrites :
    sourceInside [0xA5, 0xC3, 0x5A, 0x3C] 2 3 0 13 2 ∧ Memory.wf [(0, 0xFF), (209, 0xFF)] = true := by decide

theorem witness_BlitAtTheRightEdge :
    sourceInside [0xE0] 1 0 0 3 1 ∧ Memory.wf [(14, 0xFE), (29, 0xFF)] = true := by decide

theorem witness_ScrollStartsOnAFreeSlot : base.animKind = .none ∧ (1 : Byte) ≠ 0 ∧ (255 : Byte) ≠ 0 := by decide

theorem witness_ScrollOfZeroStartsNothing : base.animKind = .none := by decide

theorem witness_BusyScrollIsIgnored : busy.animKind ≠ .none := by decide

theorem witness_CommandFrame :
    (∃ t, exec (.clearBuffer 0 []) base = .next t) ∧ (Instr.clearBuffer 0 []).verb ≠ .showBuffer ∧
      (Instr.clearBuffer 0 []).verb ≠ .scrollLeft ∧ (Instr.clearBuffer 0 []).verb ≠ .scrollRight ∧
      (∃ t, exec (.scrollLeft 0 [1, 1]) busy = .next t) ∧ busy.animKind ≠ .none ∧
      (Instr.scrollLeft 0 [1, 1]).verb = .scrollLeft := ⟨⟨_, rfl⟩, by decide, by decide, by decide, ⟨_, rfl⟩, by decide, rfl⟩

theorem witness_CommandWritesOnlyTheNamedBuffer :
    base.fbOk ∧ (∃ t, exec (.clearBuffer 0 []) base = .next t) ∧ (1 : BufIx).val ≠ (Instr.clearBuffer 0 []).buf.toNat :=
  ⟨by decide, ⟨_, rfl⟩, by decide⟩

theorem witness_CommandsIgnoreRefreshAndSlot :
    (∃ t, exec (.showBuffer 1 []) base = .next t) ∧ (Instr.showBuffer 1 []).verb ≠ .scrollLeft ∧
      (Instr.showBuffer 1 []).verb ≠ .scrollRight := ⟨⟨_, rfl⟩, by decide, by decide⟩

/-- A state with a decodable record at its port, chosen, and with no choice left. -/
theorem witness_StepRunsTheDecodedCommand :
    ∃ (s : State) (r : Record) (i : Instr), s.cPos = none ∧ s.commands = [r] ∧ decodeRecord s.params.verbMap r = some i ∧
      s.schedule = [.command] ∧ ({ s with schedule := [] } : State).schedule = [] :=
  ⟨atPort base { verb := 0x01, buf := 1, payload := [] }, _, .showBuffer 1 [], rfl, rfl, by decide, rfl, rfl⟩

theorem witness_PlacedWordIsRunNext :
    base.params.verbMap = VerbMap.table ∧ decodeTableWord 40 0x0502_040002 = some (.scrollLeft 0 [0x02, 0x05]) := by decide

theorem witness_MovesEqualWholeCommand :
    ∃ (s : State) (r : Record) (i : Instr), s.cPos = none ∧ s.commands = [r] ∧ decodeRecord s.params.verbMap r = some i ∧
      i.verb ≠ .drawText :=
  ⟨atPort base { verb := 0x02, buf := 1, payload := [] }, _, .clearBuffer 1 [], rfl, rfl, by decide, by decide⟩

theorem witness_MovesEqualWholeDrawText :
    ∃ (s : State) (r : Record) (i : Instr), s.cPos = none ∧ s.commands = [r] ∧ decodeRecord s.params.verbMap r = some i ∧
      i.verb = .drawText :=
  ⟨atPort base { verb := 0x03, buf := 1, payload := [0, 0, 0x41] }, _, .drawText 1 [0, 0, 0x41], rfl, rfl, by decide, rfl⟩

/-- A command in progress, with each value of `CMD_PREEMPTIBLE`. -/
theorem witness_TickInsideACommand :
    ∃ s t : State, s.cPos = some (.clearBuffer 0 3) ∧ s.schedule = [.tick] ∧ s.params.cmdPreemptible = true ∧
      t.cPos = some (.clearBuffer 0 3) ∧ t.schedule = [.tick] ∧ t.params.cmdPreemptible = false :=
  ⟨{ base with cPos := some (.clearBuffer 0 3), schedule := [.tick] },
    { base with
      cPos := some (.clearBuffer 0 3), schedule := [.tick], params := { testParams with cmdPreemptible := false } },
    rfl, rfl, rfl, rfl, rfl, rfl⟩

/-- A command that goes on, and one that is answered. -/
theorem witness_CommandsRunOneAtATime :
    (∃ s t : State, s.cPos = some (.clearBuffer 0 3) ∧ s.schedule = [.command] ∧ step s = .next t ∧
      t.cPos = some (.clearBuffer 0 4)) ∧
    ∃ s t : State, s.cPos = some (.finish .ok) ∧ s.schedule = [.command] ∧ step s = .next t ∧ t.cPos = none :=
  ⟨⟨{ base with cPos := some (.clearBuffer 0 3), schedule := [.command] }, _, rfl, rfl, rfl, rfl⟩,
    ⟨{ base with cPos := some (.finish .ok), schedule := [.command] }, _, rfl, rfl, rfl, rfl⟩⟩

theorem witness_CommandHoldsOffF :
    ∃ s t : State, s.cPos = some (.clearBuffer 0 3) ∧ s.schedule = [.step] ∧ t.cPos = some (.finish .ok) ∧
      t.schedule = [.stepMove] :=
  ⟨{ base with cPos := some (.clearBuffer 0 3), schedule := [.step] },
    { base with cPos := some (.finish .ok), schedule := [.stepMove] }, rfl, rfl, rfl, rfl⟩

theorem witness_TickEffect : ∃ s : State, s.schedule = [.tick] ∧ s.cPos = none ∧ s.row = 6 :=
  ⟨{ base with schedule := [.tick], row := 6 }, rfl, rfl, rfl⟩

theorem base_DisplayOk (sch : List Choice) : State.DisplayOk { base with schedule := sch } where
  lines := by
    have h : ∀ r : RowIx, base.rowsel[r.val] = false := by decide
    exact h
  atRow := by intro r b d h; cases h
  lit := by
    have h : ∀ r : RowIx, base.rowsel[r.val] = false := by decide
    intro x r
    show (_ && base.rowsel[r.val]) = false
    rw [h, Bool.and_false]

theorem witness_LedsShowTheRowRead : ∃ s : State, s.DisplayOk ∧ s.schedule = [.tick] ∧ s.cPos = none :=
  ⟨{ base with schedule := [.tick] }, base_DisplayOk _, rfl, rfl⟩

theorem witness_FullCycle :
    ∃ s : State, s.cPos = none ∧ s.schedule = List.replicate 8 .tick ++ [.command] ∧ s.row.val = 6 :=
  ⟨{ base with schedule := List.replicate 8 .tick ++ [.command], row := 6 }, rfl, rfl, rfl⟩

theorem witness_ShowBufferTakesEffectAtTheNextTick :
    ∃ (s : State) (r : Record), s.cPos = none ∧ s.commands = [r] ∧ s.schedule = [.command, .tick] ∧
      decodeRecord s.params.verbMap r = some (.showBuffer 1 []) ∧ (1 : Byte).toNat = (1 : BufIx).val :=
  ⟨{ atPort base { verb := 0x01, buf := 1, payload := [] } with schedule := [.command, .tick] }, _, rfl, rfl, rfl,
    by decide, rfl⟩

theorem witness_FWaitsForFc :
    ∃ s t : State, s.cPos = none ∧ s.fPos = .waitFc ∧ s.fc = false ∧ s.schedule = [.step] ∧ t = { s with schedule := [.stepMove] } :=
  ⟨{ base with schedule := [.step] }, _, rfl, rfl, rfl, rfl, rfl⟩

theorem witness_StepOfAnIdleSlot :
    ∃ s : State, s.cPos = none ∧ s.fPos = .waitFc ∧ s.fc = true ∧ s.animKind = .none ∧ s.schedule = [.step] :=
  ⟨{ base with fc := true, schedule := [.step] }, rfl, rfl, rfl, rfl, rfl⟩

/-- `FRAME_CTR + 1 = FPP - 1`, the last pacing step of a pixel. -/
theorem witness_PacingStep :
    ∃ s : State, s.cPos = none ∧ s.fPos = .waitFc ∧ s.fc = true ∧ s.animKind ≠ .none ∧
      s.frameCtr.toNat + 1 < s.fpp.toNat ∧ s.schedule = [.step] :=
  ⟨{ busy with fc := true, fpp := 255, frameCtr := 253, schedule := [.step] }, rfl, rfl, rfl, by decide, by decide, rfl⟩

/-- `FRAME_CTR + 1 = FPP`, the last shift. -/
theorem witness_ShiftingStep :
    ∃ s : State, s.fbOk ∧ s.cPos = none ∧ s.fPos = .waitFc ∧ s.fc = true ∧ s.animKind = Dir.left.kind ∧
      s.fpp.toNat ≤ s.frameCtr.toNat + 1 ∧ s.pixRem ≠ 0 ∧ s.schedule = [.step] :=
  ⟨{ busy with fc := true, pixRem := 1, schedule := [.step] }, by decide, rfl, rfl, rfl, rfl, by decide, by decide, rfl⟩

theorem witness_ManyShifts : Memory.wf [(0, 0xA5), (209, 0x81)] = true := by decide

theorem witness_ScrollRunsToCompletion :
    base.fbOk ∧ base.animKind = .none ∧ (255 : Byte) ≠ 0 ∧ 65025 ≤ (255 : Byte).toNat * max (255 : Byte).toNat 1 := by decide

theorem witness_MovesEqualWholeStep : ∃ s : State, s.cPos = none ∧ s.fPos = .waitFc ∧ s.fc = true :=
  ⟨{ busy with fc := true }, rfl, rfl, rfl⟩

theorem witness_TickInsideTheHandOff : ∃ s : State, s.cPos = none ∧ s.fPos = .waitFc ∧ s.fc = true :=
  ⟨{ base with fc := true, row := 6 }, rfl, rfl, rfl⟩

/-- The state of P6 between its first two parts. -/
theorem witness_LostUpdate :
    ∃ (s : State) (rc : Record), s.fbOk ∧ s.cPos = none ∧ s.fPos = .store .left 0 0 14 false 0xFF ∧ s.commands = [rc] ∧
      s.schedule = [.command, .stepMove] ∧ decodeRecord s.params.verbMap rc = some (.clearBuffer 0 []) :=
  ⟨{ busy with
      fb := [(14, 0xFF)], fPos := .store .left 0 0 14 false 0xFF, schedule := [.command, .stepMove]
      commands := [{ verb := 0x02, buf := 0, payload := [] }] }, _, by decide, rfl, rfl, rfl, rfl, by decide⟩

theorem witness_ExistingAddresses : 210 ≤ 210 := by decide

/-- The three ways `DISP` changes. -/
theorem witness_OnlyShowBufferWritesDisp :
    (∃ s t : State, step s = .next t ∧ t.disp ≠ s.disp ∧ s.schedule = [.reset]) ∧
    (∃ s t : State, step s = .next t ∧ t.disp ≠ s.disp ∧ s.cPos = some (.showBuffer 1)) ∧
    ∃ s t : State, step s = .next t ∧ t.disp ≠ s.disp ∧ s.cPos = none :=
  ⟨⟨{ base with disp := 1, schedule := [.reset] }, _, rfl, by decide, rfl⟩,
    ⟨{ base with cPos := some (.showBuffer 1), schedule := [.commandMove] }, _, rfl, by decide, rfl⟩,
    ⟨atPort base { verb := 0x01, buf := 1, payload := [] }, _, rfl, by decide, rfl⟩⟩

theorem witness_OnlyTickDrivesTheLines : ∃ s t : State, step s = .next t ∧ t.row ≠ s.row :=
  ⟨{ base with schedule := [.tick] }, _, rfl, by decide⟩

/-- `FC` set, and cleared in each of the three ways. -/
theorem witness_WhoWritesFc :
    (∃ s t : State, step s = .next t ∧ s.fc = false ∧ t.fc = true) ∧
    (∃ s t : State, step s = .next t ∧ s.fc = true ∧ t.fc = false ∧ s.schedule = [.reset]) ∧
    (∃ s t : State, step s = .next t ∧ s.fc = true ∧ t.fc = false ∧ s.fPos = .clearFc) ∧
    ∃ s t : State, step s = .next t ∧ s.fc = true ∧ t.fc = false ∧ s.fPos = .waitFc ∧ s.schedule = [.step] :=
  ⟨⟨{ base with row := 6, schedule := [.tick] }, _, rfl, rfl, rfl⟩,
    ⟨{ base with fc := true, schedule := [.reset] }, _, rfl, rfl, rfl, rfl⟩,
    ⟨{ base with fc := true, fPos := .clearFc, schedule := [.stepMove] }, _, rfl, rfl, rfl, rfl⟩,
    ⟨{ base with fc := true, schedule := [.step] }, _, rfl, rfl, rfl, rfl, rfl⟩⟩

/-- The slot freed, by the last move of a `STEP`, in a state that meets the invariant. -/
theorem witness_ActiveSlotEndsOnlyByExhaustion :
    ∃ s t : State, s.SlotOk ∧ step s = .next t ∧ s.animKind ≠ .none ∧ t.animKind ≠ s.animKind :=
  ⟨{ busy with pixRem := 0, fPos := .freeSlot .left, schedule := [.stepMove] }, _,
    ⟨by decide, fun _ => .inr ⟨.left, rfl⟩, ⟨rfl, rfl⟩, trivial⟩, rfl, by decide, by decide⟩

theorem witness_ParametersNeverChange : ∃ s t : State, step s = .next t ∧ s.schedule = [.reset] :=
  ⟨{ busy with schedule := [.reset] }, _, rfl, rfl⟩

theorem witness_ResetEffect : ∃ s : State, s.schedule = [.reset] ∧ s.cPos = some (.clearBuffer 0 3) :=
  ⟨{ busy with cPos := some (.clearBuffer 0 3), schedule := [.reset] }, rfl, rfl⟩

theorem witness_StepKeepsCanonicalFramebuffer :
    ∃ s t : State, s.fbOk ∧ step s = .next t ∧ t.fb ≠ s.fb :=
  ⟨{ atPort base { verb := 0x02, buf := 0, payload := [] } with fb := [(14, 0xFF)] }, _, by decide, rfl, by decide⟩

theorem witness_StepKeepsDisplay : ∃ s t : State, s.DisplayOk ∧ step s = .next t ∧ t.row ≠ s.row :=
  ⟨{ base with schedule := [.tick] }, _, base_DisplayOk _, rfl, by decide⟩

theorem witness_StepKeepsSlot : ∃ s t : State, s.SlotOk ∧ step s = .next t ∧ t.pixRem ≠ s.pixRem :=
  ⟨{ busy with fPos := .writeRem .left 4, schedule := [.stepMove] }, _,
    ⟨by decide, fun _ => .inl (by decide), ⟨rfl, rfl⟩, trivial⟩, rfl, by decide⟩

end Sys2Proof.Tests
end

section
/-!
Glyph selection (`30_encoding.md` R94, `40_framebuffer_render.md` R118): the two cases of `glyphIndex`, and the NUL
that never reaches it.
-/
namespace Sys2Proof.Machine

theorem glyphIndex_val_of_printable {c : Byte} (hlo : 32 ≤ c.toNat) (hhi : c.toNat ≤ 95) :
    (glyphIndex c).val = c.toNat - 32 := by
  rw [glyphIndex, dif_pos ⟨hlo, hhi⟩]

theorem glyphIndex_eq_zero_of_not_printable {c : Byte} (hc : c.toNat < 32 ∨ 95 < c.toNat) : glyphIndex c = 0 := by
  have hout : ¬(32 ≤ c.toNat ∧ c.toNat ≤ 95) := by omega
  rw [glyphIndex, dif_neg hout]

/-- A text is the part of its message before the first NUL (`30_encoding.md` R86), so it holds none. -/
theorem zero_notMem_textOf (message : List Byte) : 0 ∉ textOf message := by
  intro hmem
  have hne : ((0 : Byte) != 0) = true := List.mem_takeWhile_imp (p := (· != 0)) hmem
  exact absurd hne (by decide)

/-- Settles O16: the two branches of `glyphIndex`, `glyphOf` by definition, and the text that ends before its NUL. -/
theorem glyphSelection : Obligations.GlyphSelection :=
  ⟨fun _ _ => ⟨glyphIndex_val_of_printable, glyphIndex_eq_zero_of_not_printable, rfl⟩, zero_notMem_textOf⟩

end Sys2Proof.Machine
end

section
/-!
draw-text and blit, pixel by pixel (`40_framebuffer_render.md` R116, R119 to R121): the record's operands, the next state
of the command, and the footprint of the space.
-/
namespace Sys2Proof.Machine

/-- The operands of a legal draw-text (`30_encoding.md` R86, R92): `BUF` below 2 and a message of at most 30 bytes. -/
theorem drawTextOperands_of_legal {buf : Byte} (hb : buf.toNat < 2) (x y : Byte) {message : List Byte}
    (hl : message.length ≤ 30) :
    drawTextOperands buf (x :: y :: message) = .ok (⟨buf.toNat, hb⟩, x, y, textOf message) := by
  have hlen : ¬(x :: y :: message).length > 32 := by simp only [List.length_cons]; omega
  simp only [drawTextOperands, bufferOf, dif_pos hb, if_neg hlen]

/-- A legal draw-text draws its text in the named buffer and is answered `OK` (`43_dispatcher.md` R195). -/
theorem exec_drawText_of_legal (s : State) {buf : Byte} (hb : buf.toNat < 2) (x y : Byte) {message : List Byte}
    (hl : message.length ≤ 30) :
    exec (.drawText buf (x :: y :: message)) s =
      .next (({ s with fb := drawText s.params.glyph ⟨buf.toNat, hb⟩ x y (textOf message) s.fb }).answer .ok) := by
  simp only [exec, execDrawText, drawTextOperands_of_legal hb x y hl, done_eq_answer]

/-- A text is no longer than its message. -/
theorem length_textOf_le (message : List Byte) : (textOf message).length ≤ message.length :=
  (List.takeWhile_sublist _).length_le

/-- `draw_text` (R119): a text of at most 30 characters is drawn glyph by glyph in the named buffer, from column `x`, and
the other buffer is as it was. -/
theorem pixel_drawText {m : Memory} (hm : Memory.wf m = true) (t : GlyphTable) (b b' : BufIx) (x y : Byte)
    {text : List Byte} (hl : text.length ≤ 30) (X : ColIx) (Y : RowIx) :
    pixel (drawText t b x y text m) b' X Y =
      if b' = b then textPixel t y.toNat X.val Y.val x.toNat text (pixel m b' X Y) else pixel m b' X Y := by
  have hx : (x.setWidth 16).toNat = x.toNat := by rw [BitVec.toNat_setWidth]; omega
  rw [drawText, pixel_drawTextFrom hm t b b' y _ text (by omega), hx]
  split
  · next h => rw [h]
  · rfl

/-- Settles O13: the next state of a legal draw-text, and the pixels of `draw_text` read from it. The cursor starts at most
at 255 and 30 advances of at most 255 keep it below 65536, so that it is exact (R122). -/
theorem drawTextDrawsTheFootprints : Obligations.DrawTextDrawsTheFootprints := by
  intro s buf x y message hfb hb hl
  refine ⟨_, exec_drawText_of_legal s hb x y hl, fun b X Y => ?_⟩
  rw [pixel_drawText hfb _ _ _ _ _ ((length_textOf_le message).trans hl)]
  simp only [Fin.ext_iff, textOf]

/-- Code 32 and every code that selects no glyph of its own are drawn as the space (`30_encoding.md` R94). -/
theorem glyphOf_eq_space (t : GlyphTable) {c : Byte} (hc : c.toNat ≤ 32 ∨ 95 < c.toNat) :
    glyphOf t c = glyphEntry t 0 := by
  by_cases h32 : c.toNat = 32
  · have h0 : glyphIndex c = 0 := Fin.ext (by rw [glyphIndex_val_of_printable (by omega) (by omega), h32]; rfl)
    rw [glyphOf, h0]
  · rw [glyphOf, glyphIndex_eq_zero_of_not_printable (by omega)]

/-- Every pixel of the space is clear (`10_state.md` R29). -/
theorem glyphPixel_space (t : GlyphTable) (i j : Nat) : glyphPixel (glyphEntry t 0) i j = false := by
  have hbm : (glyphEntry t 0).bm.toList = List.replicate 7 0 := rfl
  have hbyte : (List.replicate 7 (0 : Byte)).getD j 0 = 0 := by
    rw [List.getD_eq_getElem?_getD, List.getElem?_replicate]
    split <;> rfl
  rw [glyphPixel, hbm, hbyte, BitVec.ofNat_eq_ofNat, BitVec.getLsbD_zero]

/-- One character drawn as the space clears the pixels of the footprint of `GLYPH[0]` and keeps the others (R121). -/
theorem textPixel_space (t : GlyphTable) {c : Byte} (hc : c.toNat ≤ 32 ∨ 95 < c.toNat) (y X Y cx : Nat) (p : Bool) :
    textPixel t y X Y cx [c] p =
      if cx ≤ X ∧ X < cx + t.space.w.val ∧ y ≤ Y ∧ Y < y + t.space.h.val then false else p := by
  simp only [textPixel, glyphOf_eq_space t hc, glyphPixel_space]
  rfl

/-- A draw-text whose text is empty is only answered (R121). -/
theorem exec_drawText_of_empty (s : State) {buf : Byte} (hb : buf.toNat < 2) (x y : Byte) {message : List Byte}
    (hl : message.length ≤ 30) (hempty : textOf message = []) :
    exec (.drawText buf (x :: y :: message)) s = .next (s.onlyAnswered .ok) := by
  rw [exec_drawText_of_legal s hb x y hl, hempty]
  rfl

/-- Settles O15: no message and a NUL first leave the text empty; a code drawn as the space is the one-character case of
`drawTextDrawsTheFootprints`. -/
theorem emptyTextAndSpace : Obligations.EmptyTextAndSpace := by
  intro s buf x y hfb hb
  refine ⟨exec_drawText_of_empty s hb x y (by decide) rfl, exec_drawText_of_empty s hb x y (by decide) rfl,
    fun c hc0 hc => ?_⟩
  obtain ⟨fb', hexec, hpixel⟩ := drawTextDrawsTheFootprints s buf x y [c, 0] hfb hb (by simp)
  have htext : [c, 0].takeWhile (· != 0) = [c] := List.takeWhile_cons_of_pos (bne_iff_ne.2 hc0)
  refine ⟨fb', hexec, fun b X Y => ?_⟩
  rw [hpixel, htext, textPixel_space _ hc]
  exact (ite_and ..).symm

/-- Settles O19: `pixel_blit`, by induction on the rows and the columns of the rectangle, over the clipped write of one
pixel. -/
theorem blitOverwrites : Obligations.BlitOverwrites :=
  fun _ _ _ _ _ _ _ hsrc b dx dy hm b' X Y => pixel_blit hm hsrc b b' dx dy X Y

end Sys2Proof.Machine
end

section
/-!
TICK and its place after a show-buffer (`41_refresh.md` R141, R143, R147): what each part of a `TICK` leaves, and the
two choices, taken with no command in progress, that the statements run.
-/
namespace Sys2Proof.Machine

/-- `ROW` becomes 0 exactly when it wraps (R143). -/
theorem nextRow_eq_zero_iff (r : RowIx) : nextRow r = 0 ↔ r = 6 := by revert r; decide

/-- `FC` after a `TICK` (R143), by the row shown before it. -/
theorem raisedFc_nextRow (r : RowIx) (fc : Bool) : raisedFc (nextRow r) fc = (decide (r = 6) || fc) := by
  by_cases h : r = 6
  · rw [raisedFc, if_pos ((nextRow_eq_zero_iff r).2 h), decide_eq_true h, Bool.true_or]
  · rw [raisedFc, if_neg (mt (nextRow_eq_zero_iff r).1 h), decide_eq_false h, Bool.false_or]

/-- The select lines after one is put off and then one on (R141, steps 1 and 5). -/
theorem getElem_rowsel_set (rowsel : Vector Bool 7) (off on r : RowIx) :
    ((rowsel.set off.val false).set on.val true)[r.val] =
      if r = on then true else if r = off then false else rowsel[r.val] := by
  simp only [Vector.getElem_set, Fin.ext_iff, eq_comm (a := r.val)]

/-- The bit sent in place `8 k + n` is bit `7 - n` of byte `k` of the row (R142). -/
theorem getElem_rowBits_rowBytes (m : Memory) (b : BufIx) (r : RowIx) (k : ByteIx) (n : Fin 8) :
    (rowBits (rowBytes m b r))[8 * k.val + n.val]? = some ((fbRead m b r k).getLsbD (7 - n.val)) := by
  have hbyte : (8 * k.val + n.val) / 8 = k.val := by omega
  have hbit : (8 * k.val + n.val) % 8 = n.val := by omega
  have hlen : 8 * k.val + n.val < 8 * (rowBytes m b r).length := by rw [rowBytes_length]; omega
  rw [getElem_rowBits _ _ hlen, hbyte, hbit, List.getD_eq_getElem?_getD, getElem_rowBytes, Option.getD_some]

/-- A run of any core goes on from the next state of its first step. -/
theorem coreRun_succ {M : Host.Core} {s t : M.State} (h : M.step s = .next t) (n : Nat) :
    M.run (n + 1) s = M.run n t := by
  rw [Host.Core.run, h]

/-- A run goes on from the next state of its first step. -/
theorem run_succ {s t : State} (h : step s = .next t) (n : Nat) : run (n + 1) s = run n t :=
  coreRun_succ (M := Sys2Proof.core) h n

/-- A tick chosen with no command in progress is the whole next step. -/
theorem step_tick_of_idle {s : State} {rest : List Choice} (hs : s.schedule = .tick :: rest) (hc : s.cPos = none) :
    step s = .next (tick { s with schedule := rest }) := by
  have hadmitted : tickAdmitted s = true := by rw [tickAdmitted, hc]; rfl
  simp only [step, act, hs, chooseTick, hadmitted, if_true]

/-- A command chosen with none in progress is the record at the port, whole (`43_dispatcher.md` R190). -/
theorem step_command_of_idle {s : State} {r : Record} {rs : List Record} {rest : List Choice} {i : Instr}
    (hs : s.schedule = .command :: rest) (hc : s.cPos = none) (hr : s.commands = r :: rs)
    (hd : decodeRecord s.params.verbMap r = some i) : step s = exec i { s with commands := rs, schedule := rest } := by
  simp only [step, act, hs, chooseCommand, hc, hr, runRecord, hd]

/-- A legal show-buffer writes `DISP` and is answered `OK` (`43_dispatcher.md` R193). -/
theorem exec_showBuffer_of_legal (s : State) {buf : Byte} {b : BufIx} (hb : buf.toNat = b.val) :
    exec (.showBuffer buf []) s = .next ({ s with disp := b }.answer .ok) := by
  have hbuf : bufferOf buf = .ok b := by
    rw [bufferOf, dif_pos (hb ▸ b.isLt)]
    exact congrArg Except.ok (Fin.ext hb)
  have hop : bareBufferOperand buf [] = .ok b := by rw [bareBufferOperand, hbuf]; rfl
  rw [exec, execShowBuffer, hop]
  rfl

/-- Settles O34: the step is the `TICK`, and each of its parts is read by its own lemma. -/
theorem tickEffect : Obligations.TickEffect := by
  intro s rest hs hc
  refine ⟨(s.rowsel.set s.row.val false).set (nextRow s.row).val true,
    rowBits (rowBytes s.fb s.disp (nextRow s.row)), ?_, rfl, nextRow_eq_zero_iff s.row,
    getElem_rowsel_set s.rowsel s.row (nextRow s.row), rowBits_length _, getElem_rowBits_rowBytes _ _ _⟩
  rw [step_tick_of_idle hs hc, ← raisedFc_nextRow]
  rfl

/-- Settles O38: the first step leaves `DISP = b` and every row as it was, with the tick still to come; the second is
that tick, which reads `DISP` fresh. -/
theorem showBufferTakesEffectAtTheNextTick : Obligations.ShowBufferTakesEffectAtTheNextTick := by
  intro s r rs rest buf b hc hr hs hd hb
  have hshow : step s = .next ({ s with commands := rs, schedule := .tick :: rest, disp := b }.answer .ok) :=
    (step_command_of_idle hs hc hr hd).trans (exec_showBuffer_of_legal _ hb)
  have htick := step_tick_of_idle (s := { s with commands := rs, schedule := .tick :: rest, disp := b }.answer .ok)
    rfl hc
  exact ⟨_, (run_succ hshow 1).trans (run_succ htick 0), tick_trace _⟩

end Sys2Proof.Machine
end

section
/-!
A scroll that finds the slot busy (`42_animation.md` R173).
-/
namespace Sys2Proof.Machine

/-- A busy slot is answered as such and nothing is written (R161). -/
theorem startScroll_of_busy {s : State} (hk : s.animKind ≠ .none) (d : Dir) (fpp count : Byte) :
    startScroll d fpp count s = (.busy, s) :=
  if_pos hk

/-- A well-formed scroll on a busy slot, in either direction, only drives `STATUS`, with `SLOT_BUSY_STATUS` (R173, R224). -/
theorem scrollCommand_of_busy {s : State} (hk : s.animKind ≠ .none) (d : Dir) (fpp count : Byte) :
    scrollCommand d [fpp, count] s = s.onlyAnswered s.params.slotBusyStatus := by
  simp only [scrollCommand, scrollOperands, startScroll_of_busy hk, busyStatus]
  cases s.params.slotBusyStatus with
  | ok => rfl
  | reject => rfl

/-- Settles O23: both scroll verbs are `scrollCommand`, which a busy slot leaves with its answer only. -/
theorem busyScrollIsIgnored : Obligations.BusyScrollIsIgnored :=
  fun _ _ fpp count hk =>
    ⟨congrArg Host.Outcome.next (scrollCommand_of_busy hk .left fpp count),
      congrArg Host.Outcome.next (scrollCommand_of_busy hk .right fpp count)⟩

end Sys2Proof.Machine
end

section
/-!
The one `STATUS` of a command (`43_dispatcher.md` R191, R199, `60_exceptions.md` R223, R224). What a command leaves is its
`CommandResult`; here is when the answer is `REJECT`.
-/
namespace Sys2Proof.Machine

/-- Every result of a command drives `STATUS` once (R199). -/
theorem CommandResult.trace_eq {i : Instr} {s t : State} (h : CommandResult i s t) :
    t.trace = .status t.status :: s.trace := by
  cases h <;> rfl

/-- A result whose `STATUS` is `REJECT` is the bare answer, since every other one is answered `OK` (R223). -/
theorem CommandResult.eq_onlyAnswered_of_reject {i : Instr} {s t : State} (h : CommandResult i s t)
    (hst : t.status = .reject) : t = s.onlyAnswered .reject := by
  cases h with
  | answered st => exact congrArg s.answer hst
  | wroteFb | wroteDisp | started => exact nomatch hst

/-- A well-formed scroll on a free slot is answered `OK`, whatever its count (R161, R196, R197). -/
theorem status_scrollCommand_of_free {s : State} (hk : s.animKind = .none) (d : Dir) (fpp count : Byte) :
    (scrollCommand d [fpp, count] s).status = .ok := by
  have hfree : ¬s.animKind ≠ .none := not_not_intro hk
  by_cases hc : count = 0
  · simp only [scrollCommand, scrollOperands, startScroll, if_neg hfree, if_pos hc, done_eq_answer, answer_status]
  · simp only [scrollCommand, scrollOperands, startScroll, if_neg hfree, if_neg hc, done_eq_answer, answer_status]

/-- A scroll is rejected for its payload's length, or for a busy slot where the open parameter says so (R191, R224). -/
theorem status_scrollCommand_eq_reject_iff (d : Dir) (buf : Byte) (p : List Byte) (s : State) :
    (scrollCommand d p s).status = .reject ↔
      causeOf (scrollVerb d buf p) ≠ none ∨ s.animKind ≠ .none ∧ s.params.slotBusyStatus = .reject := by
  match p with
  | [] | [_] | _ :: _ :: _ :: _ => exact iff_of_true rfl (.inl (by cases d <;> exact Option.some_ne_none _))
  | [fpp, count] =>
    have hcause : causeOf (scrollVerb d buf [fpp, count]) = none := by cases d <;> rfl
    by_cases hk : s.animKind = .none
    · simp [hcause, hk, status_scrollCommand_of_free hk]
    · simp [hcause, hk, scrollCommand_of_busy hk, State.onlyAnswered]

/-- A command that is no scroll is rejected exactly when its record gives a cause: once its checks are passed it is
answered `OK` (R191). -/
theorem exec_rejects_iff_cause {i : Instr} (hl : i.verb ≠ .scrollLeft) (hr : i.verb ≠ .scrollRight) (s : State) :
    ∃ t, exec i s = .next t ∧ (t.status = .reject ↔ causeOf i ≠ none) := by
  cases i with
  | setRow buf p =>
    simp only [exec, execSetRow, causeOf]
    cases setRowOperands buf p <;> exact ⟨_, rfl, by simp⟩
  | showBuffer buf p =>
    simp only [exec, execShowBuffer, causeOf]
    cases bareBufferOperand buf p <;> exact ⟨_, rfl, by simp⟩
  | clearBuffer buf p =>
    simp only [exec, execClearBuffer, causeOf]
    cases bareBufferOperand buf p <;> exact ⟨_, rfl, by simp⟩
  | drawText buf p =>
    simp only [exec, execDrawText, causeOf]
    cases drawTextOperands buf p <;> exact ⟨_, rfl, by simp⟩
  | scrollLeft => exact absurd rfl hl
  | scrollRight => exact absurd rfl hr

/-- When a command is rejected (R191, R224). -/
theorem status_eq_reject_iff {i : Instr} {s t : State} (h : exec i s = .next t) :
    t.status = .reject ↔ causeOf i ≠ none ∨
      ((i.verb = .scrollLeft ∨ i.verb = .scrollRight) ∧ s.animKind ≠ .none ∧ s.params.slotBusyStatus = .reject) := by
  by_cases hv : i.verb = .scrollLeft ∨ i.verb = .scrollRight
  · rw [and_iff_right hv]
    cases i with
    | scrollLeft buf p => cases h; exact status_scrollCommand_eq_reject_iff .left buf p s
    | scrollRight buf p => cases h; exact status_scrollCommand_eq_reject_iff .right buf p s
    | setRow | showBuffer | clearBuffer | drawText => simp [Instr.verb] at hv
  · obtain ⟨hl, hr⟩ := not_or.1 hv
    obtain ⟨t', ht', hiff⟩ := exec_rejects_iff_cause hl hr s
    rw [h] at ht'
    cases ht'
    rw [hiff, or_iff_left fun hbusy => hv hbusy.1]

/-- Settles O9: the one `STATUS` and what a rejection leaves are read from the result of the command, and when it is a
rejection from its checks. -/
theorem everyCommandIsAnsweredOnce : Obligations.EveryCommandIsAnsweredOnce := by
  intro i s
  obtain ⟨t, ht, hresult⟩ := exec_result i s
  exact ⟨t, ht, hresult.trace_eq, status_eq_reject_iff ht, hresult.eq_onlyAnswered_of_reject⟩

end Sys2Proof.Machine
end

section
/-!
The parameters, `GLYPH` among them (`10_state.md` R29, `70_reset_and_hazards.md` R251): no operation of `C` or `F` writes
them. For a `TICK` and for reset `Laws/State.lean` says the same.
-/
namespace Sys2Proof.Machine

/-- Every result of a command keeps the parameters. -/
theorem CommandResult.params_eq {i : Instr} {s t : State} (h : CommandResult i s t) : t.params = s.params := by
  cases h <;> rfl

@[simp] theorem setRowMove_params (b : BufIx) (row : RowIx) (bitmap : List Byte) (k : Nat) (s : State) :
    (setRowMove b row bitmap k s).params = s.params := by
  rw [setRowMove]
  split
  · rfl
  · split <;> rfl

@[simp] theorem clearBufferMove_params (b : BufIx) (n : Nat) (s : State) :
    (clearBufferMove b n s).params = s.params := by
  rw [clearBufferMove]
  split <;> rfl

/-- draw-text reads the glyph table at every character, and writes no part of it. -/
@[simp] theorem drawTextMove_params (b : BufIx) (y : Byte) (text : List Byte) (cx : BitVec 16) (ci j i : Nat)
    (t : Option Byte) (s : State) : (drawTextMove b y text cx ci j i t s).params = s.params := by
  rw [drawTextMove]
  split
  · rfl
  · dsimp only
    split_ifs
    · cases t <;> rfl
    all_goals rfl

@[simp] theorem scrollTestMove_params (d : Dir) (fpp count : Byte) (s : State) :
    (scrollTestMove d fpp count s).params = s.params := by
  rw [scrollTestMove]
  split_ifs <;> rfl

/-- No move of a command writes a parameter. -/
@[simp] theorem commandMoveAt_params (p : CPos) (s : State) : (commandMoveAt p s).params = s.params := by
  cases p with
  | setRow b row bitmap k => exact setRowMove_params b row bitmap k s
  | clearBuffer b n => exact clearBufferMove_params b n s
  | drawText b y text cx ci j i t => exact drawTextMove_params b y text cx ci j i t s
  | scrollTest d fpp count => exact scrollTestMove_params d fpp count s
  | showBuffer | scrollFpp | scrollRem | scrollCtr | scrollKind | finish => rfl

@[simp] theorem animStep_params (s : State) : (animStep s).2.params = s.params := by
  rw [animStep]
  split
  · rfl
  · split_ifs <;> rfl

/-- A whole `STEP` writes no parameter. -/
@[simp] theorem takeStep_params (s : State) : (takeStep s).params = s.params := by
  rw [takeStep]
  split
  · rw [animStep_params, clearFc_params]
  · rfl

/-- No move of `F` writes a parameter. -/
@[simp] theorem stepMove_params (s : State) : (stepMove s).params = s.params := by
  rw [stepMove]
  cases s.fPos with
  | waitFc | readKind | readFpp => dsimp only; split <;> rfl
  | clearFc | readCtr | writeCtr | zeroCtr | readDisp | load | store | readRem | writeRem | freeSlot => rfl

/-- A step of any kind keeps the parameters. -/
theorem StepCase.params_eq {s t : State} (h : StepCase s t) : t.params = s.params := by
  cases h with
  | commandMove p => exact commandMoveAt_params p _
  | command _ _ _ _ _ _ _ _ hresult => exact hresult.params_eq
  | wholeStep => exact takeStep_params _
  | stepMove => exact stepMove_params _
  | tick | reset | commandStart | unknown | nothing => rfl

/-- Settles O55: reset carries the configured `GLYPH`, and no case of a step writes a parameter. -/
theorem parametersNeverChange : Obligations.ParametersNeverChange :=
  ⟨rfl, fun _ _ h => (case_of_step h).params_eq⟩

end Sys2Proof.Machine
end

section
/-!
The decoder and the encoder (`30_encoding.md` R80 to R92): each stage of one undoes that stage of the other, the verb and
its code, the record and its command, the bytes and their record.
-/
namespace Sys2Proof

/-- Under a map without a repeated code, the code of a verb selects that verb (R82). -/
theorem verbOf_codeOf {m : VerbMap} (hm : m.distinct) (v : Verb) : verbOf m (codeOf m v) = some v := by
  simp only [VerbMap.distinct, VerbMap.codes, List.nodup_cons, List.mem_cons, List.not_mem_nil, not_or] at hm
  obtain ⟨hsetRow, hshow, hclear, hdraw, hleft, _⟩ := hm
  cases v <;> simp [verbOf, codeOf, hsetRow, hshow, hclear, hdraw, hleft, eq_comm]

/-- A code that selects a verb is that verb's code, under any map. -/
theorem codeOf_of_verbOf {m : VerbMap} {code : Byte} {v : Verb} (h : verbOf m code = some v) : codeOf m v = code := by
  rw [verbOf] at h
  split_ifs at h <;> (cases h; symm; assumption)

/-- A command is made of its verb, its `BUF` and its payload. -/
theorem instrOf_parts (i : Instr) : instrOf i.verb i.buf i.payload = i := by cases i <;> rfl

theorem verb_instrOf (v : Verb) (buf : Byte) (p : List Byte) : (instrOf v buf p).verb = v := by cases v <;> rfl

theorem buf_instrOf (v : Verb) (buf : Byte) (p : List Byte) : (instrOf v buf p).buf = buf := by cases v <;> rfl

theorem payload_instrOf (v : Verb) (buf : Byte) (p : List Byte) : (instrOf v buf p).payload = p := by cases v <;> rfl

theorem decodeRecord_encodeRecord {m : VerbMap} (hm : m.distinct) (i : Instr) :
    decodeRecord m (encodeRecord m i) = some i := by
  rw [decodeRecord, encodeRecord, verbOf_codeOf hm, Option.map_some, instrOf_parts]

theorem encodeRecord_of_decodeRecord {m : VerbMap} {r : Record} {i : Instr} (h : decodeRecord m r = some i) :
    encodeRecord m i = r := by
  obtain ⟨v, hv, rfl⟩ := Option.map_eq_some_iff.1 h
  rw [encodeRecord, verb_instrOf, buf_instrOf, payload_instrOf, codeOf_of_verbOf hv]

/-- `LEN` of a record that the port can carry is exactly the length of its payload (R80). -/
theorem toNat_len_of_wellFormed {r : Record} (hr : r.WellFormed) : (BitVec.ofNat 8 r.len).toNat = r.payload.length := by
  rw [BitVec.toNat_ofNat, Record.len, Nat.mod_eq_of_lt (Nat.lt_succ_of_le hr)]

theorem recordOfBytes_bytesOfRecord {r : Record} (hr : r.WellFormed) (rest : List Byte) :
    recordOfBytes (bytesOfRecord r ++ rest) = some (r, rest) := by
  simp [bytesOfRecord, recordOfBytes, toNat_len_of_wellFormed hr]

theorem bytesOfRecord_of_recordOfBytes {bytes rest : List Byte} {r : Record} (h : recordOfBytes bytes = some (r, rest)) :
    r.WellFormed ∧ bytesOfRecord r ++ rest = bytes := by
  match bytes with
  | [] | [_] | [_, _] => cases h
  | verb :: buf :: len :: tail =>
    rw [recordOfBytes] at h
    split at h
    · cases h
    · next hlen =>
      cases h
      have htake : (tail.take len.toNat).length = len.toNat := List.length_take_of_le (Nat.le_of_not_lt hlen)
      refine ⟨htake.trans_le (Nat.le_of_lt_succ len.isLt), ?_⟩
      simp only [bytesOfRecord, Record.len, htake, BitVec.ofNat_toNat, BitVec.setWidth_eq, List.cons_append,
        List.take_append_drop]

/-- The decoder reads a record off the bytes and then the command off the record (R92). -/
theorem decode_eq_ok_iff {m : VerbMap} {bytes rest : List Byte} {i : Instr} :
    decode m bytes = .ok (i, rest) ↔ ∃ r, recordOfBytes bytes = some (r, rest) ∧ decodeRecord m r = some i := by
  rw [decode]
  cases hb : recordOfBytes bytes with
  | none => simp
  | some found =>
    obtain ⟨r, rest'⟩ := found
    cases hr : decodeRecord m r with
    | none => simp [hr]
    | some i' => simp [hr, and_comm]

/-- Settles O1: the record of the command is read off the bytes, and the command off the record. -/
theorem decodeOfEncode : Obligations.DecodeOfEncode := fun m i rest hm hi =>
  decode_eq_ok_iff.2 ⟨encodeRecord m i, recordOfBytes_bytesOfRecord hi rest, decodeRecord_encodeRecord hm i⟩

/-- Settles O2: the record that the decoder read is the command's own, and its bytes are those it was read from. -/
theorem encodeOfDecode : Obligations.EncodeOfDecode := by
  intro m bytes i rest h
  obtain ⟨r, hbytes, hdecode⟩ := decode_eq_ok_iff.1 h
  obtain ⟨hwf, happend⟩ := bytesOfRecord_of_recordOfBytes hbytes
  obtain rfl := encodeRecord_of_decodeRecord hdecode
  exact ⟨hwf, happend⟩

/-- Settles O3: the six tests of `verbOf` on the table's codes. -/
theorem tableCodesSelectVerbs : Obligations.TableCodesSelectVerbs := by
  intro r
  simp only [decodeRecord, verbOf, apply_ite (Option.map fun v => instrOf v r.buf r.payload), Option.map_some,
    Option.map_none]
  rfl

/-- Settles O4: the decoder run on the bytes of each record. -/
theorem specRecordsDecode : Obligations.SpecRecordsDecode := ⟨rfl, rfl, rfl, rfl, rfl, rfl⟩

/-- A byte of a word, counted from the least significant, is a slice of its bits. -/
theorem byteAt_toNat {w : Nat} (v : BitVec w) (n : Nat) : byteAt v.toNat n = v.extractLsb' (8 * n) 8 := by
  apply BitVec.eq_of_toNat_eq
  rw [byteAt, BitVec.toNat_ofNat, BitVec.extractLsb'_toNat, Nat.shiftRight_eq_div_pow]

theorem headerOf_verb (r : Record) : (headerOf r).extractLsb' 16 8 = r.verb := by
  rw [headerOf, BitVec.extractLsb'_append_eq_of_le (by decide)]
  exact BitVec.extractLsb'_append_eq_left

theorem headerOf_buf (r : Record) : (headerOf r).extractLsb' 8 8 = r.buf := by
  rw [headerOf, BitVec.extractLsb'_append_eq_of_le (by decide)]
  exact BitVec.extractLsb'_append_eq_right

theorem headerOf_len (r : Record) : (headerOf r).extractLsb' 0 8 = BitVec.ofNat 8 r.len :=
  BitVec.extractLsb'_append_eq_right

/-- Settles O5: the three fields of the word, which are also its three bytes, most significant first. -/
theorem headerWordFields : Obligations.HeaderWordFields := by
  intro r hr
  refine ⟨headerOf_verb r, headerOf_buf r, ?_, ?_⟩
  · rw [headerOf_len, toNat_len_of_wellFormed hr, Record.len]
  · have hmod : (headerOf r).toNat % 2 ^ 24 = (headerOf r).toNat := Nat.mod_eq_of_lt (headerOf r).isLt
    simp only [bytesOfWord, hmod, byteAt_toNat, Nat.reduceMul, headerOf_verb, headerOf_buf, headerOf_len, bytesOfRecord,
      List.take_succ_cons, List.take_zero]

end Sys2Proof
end

section
/-!
What each move can do, said once (`20_memory.md` R62, R65): for `F` a frame equation, which names the only fields written,
and for `C` the result of a move by the position it is made at.
-/
namespace Sys2Proof.Machine

/-! ## The fields that `F` writes -/

/-- A move of `F` writes the framebuffer, `FC`, the slot's counters and kind, and its own position, and nothing else. -/
theorem stepMove_frame (s : State) :
    stepMove s = { s with
      fb := (stepMove s).fb, fc := (stepMove s).fc, animKind := (stepMove s).animKind
      frameCtr := (stepMove s).frameCtr, pixRem := (stepMove s).pixRem, fPos := (stepMove s).fPos } := by
  rw [stepMove]
  cases s.fPos with
  | waitFc | readKind | readFpp => dsimp only; split <;> rfl
  | clearFc | readCtr | writeCtr | zeroCtr | readDisp | load | store | readRem | writeRem | freeSlot => rfl

/-- `step()` writes the framebuffer and the slot's counters and kind, and nothing else. -/
theorem animStep_frame (s : State) :
    (animStep s).2 = { s with
      fb := (animStep s).2.fb, animKind := (animStep s).2.animKind
      frameCtr := (animStep s).2.frameCtr, pixRem := (animStep s).2.pixRem } := by
  rw [animStep]
  split
  · rfl
  · split_ifs <;> rfl

/-- A whole `STEP` writes what `step()` writes, and `FC`. -/
theorem takeStep_frame (s : State) :
    takeStep s = { s with
      fb := (takeStep s).fb, fc := (takeStep s).fc, animKind := (takeStep s).animKind
      frameCtr := (takeStep s).frameCtr, pixRem := (takeStep s).pixRem } := by
  rw [takeStep]
  split
  · rw [animStep_frame]; rfl
  · rfl

/-! ## A move of `C`, by its position -/

/-- The positions between a scroll verb's test of the slot and its last write of it. -/
def CPos.writesSlot : CPos → Bool
  | .scrollFpp .. | .scrollRem .. | .scrollCtr .. | .scrollKind .. => true
  | .setRow .. | .showBuffer .. | .clearBuffer .. | .drawText .. | .scrollTest .. | .finish .. => false

/-- What a move of `C` leaves of the state: it writes the framebuffer, or nothing but its own position, or one register,
or it gives the answer and releases the port. -/
inductive MoveResult (s : State) : CPos → State → Prop where
  | wroteFb {p : CPos} (p' : CPos) (hp' : p'.writesSlot = false) (fb' : Memory)
      (hwf : Memory.wf s.fb = true → Memory.wf fb' = true) : MoveResult s p { s with fb := fb', cPos := some p' }
  | passed {p : CPos} (p' : CPos) (hp' : p'.writesSlot = false) : MoveResult s p { s with cPos := some p' }
  | wroteDisp (b : BufIx) : MoveResult s (.showBuffer b) { s with disp := b, cPos := some (.finish .ok) }
  | foundFree (d : Dir) (fpp count : Byte) (hk : s.animKind = .none) (hc : count ≠ 0) :
      MoveResult s (.scrollTest d fpp count) { s with cPos := some (.scrollFpp d fpp count) }
  | wroteFpp (d : Dir) (fpp count : Byte) :
      MoveResult s (.scrollFpp d fpp count) { s with fpp := fpp, cPos := some (.scrollRem d count) }
  | wroteRem (d : Dir) (count : Byte) :
      MoveResult s (.scrollRem d count) { s with pixRem := count, cPos := some (.scrollCtr d) }
  | wroteCtr (d : Dir) : MoveResult s (.scrollCtr d) { s with frameCtr := 0, cPos := some (.scrollKind d) }
  | wroteKind (d : Dir) : MoveResult s (.scrollKind d) { s with animKind := d.kind, cPos := some (.finish .ok) }
  | answered (st : Status) : MoveResult s (.finish st) (s.answer st).releasePort

theorem setRowMove_result (p : CPos) (b : BufIx) (row : RowIx) (bitmap : List Byte) (k : Nat) (s : State) :
    MoveResult s p (setRowMove b row bitmap k s) := by
  rw [setRowMove]
  split
  · exact .passed _ rfl
  · split
    · exact .wroteFb _ rfl _ fun h => wf_fbWrite h ..
    · exact .passed _ rfl

theorem clearBufferMove_result (p : CPos) (b : BufIx) (n : Nat) (s : State) :
    MoveResult s p (clearBufferMove b n s) := by
  rw [clearBufferMove]
  split
  · next hn => exact .wroteFb _ rfl _ fun h => Memory.wf_write _ h (by omega)
  · exact .passed _ rfl

theorem drawTextMove_result (p : CPos) (b : BufIx) (y : Byte) (text : List Byte) (cx : BitVec 16) (ci j i : Nat)
    (t : Option Byte) (s : State) : MoveResult s p (drawTextMove b y text cx ci j i t s) := by
  rw [drawTextMove]
  split
  · exact .passed _ rfl
  · dsimp only
    split_ifs
    · cases t with
      | none => exact .passed _ rfl
      | some v => exact .wroteFb _ rfl _ fun h => wf_fbWrite h ..
    all_goals exact .passed _ rfl

theorem scrollTestMove_result (d : Dir) (fpp count : Byte) (s : State) :
    MoveResult s (.scrollTest d fpp count) (scrollTestMove d fpp count s) := by
  rw [scrollTestMove]
  split_ifs with hk hc
  · exact .passed _ rfl
  · exact .passed _ rfl
  · exact .foundFree d fpp count (not_not.1 hk) hc

theorem commandMoveAt_result (p : CPos) (s : State) : MoveResult s p (commandMoveAt p s) := by
  cases p with
  | setRow b row bitmap k => exact setRowMove_result _ b row bitmap k s
  | showBuffer b => exact .wroteDisp b
  | clearBuffer b n => exact clearBufferMove_result _ b n s
  | drawText b y text cx ci j i t => exact drawTextMove_result _ b y text cx ci j i t s
  | scrollTest d fpp count => exact scrollTestMove_result d fpp count s
  | scrollFpp d fpp count => exact .wroteFpp d fpp count
  | scrollRem d count => exact .wroteRem d count
  | scrollCtr d => exact .wroteCtr d
  | scrollKind d => exact .wroteKind d
  | finish st => exact .answered st

/-- No command starts inside the writes of a scroll (`42_animation.md` R161). -/
theorem writesSlot_startOf (i : Instr) : (startOf i).writesSlot = false := by
  cases i <;> (rw [startOf]; split <;> rfl)

theorem writesSlot_startOfRecord (m : VerbMap) (r : Record) : (startOfRecord m r).writesSlot = false := by
  rw [startOfRecord]
  split
  · rfl
  · exact writesSlot_startOf _

end Sys2Proof.Machine
end

section
/-!
The framebuffer keeps its canonical form (`20_memory.md` R51, R58): each write of a step is at an existing address.
-/
namespace Sys2Proof.Machine

theorem MoveResult.fbOk {s t : State} {p : CPos} (h : MoveResult s p t) (hs : s.fbOk) : t.fbOk := by
  cases h with
  | wroteFb _ _ _ hwf => exact hwf hs
  | passed | wroteDisp | foundFree | wroteFpp | wroteRem | wroteCtr | wroteKind | answered => exact hs

theorem CommandResult.fbOk {i : Instr} {s t : State} (h : CommandResult i s t) (hs : s.fbOk) : t.fbOk := by
  cases h with
  | wroteFb _ _ hwf => exact hwf hs
  | answered | wroteDisp | started => exact hs

theorem animStep_fbOk {s : State} (hs : s.fbOk) : (animStep s).2.fbOk := by
  rw [animStep]
  split
  · exact hs
  · split_ifs
    · exact hs
    all_goals exact wf_shiftBuffer hs ..

theorem takeStep_fbOk {s : State} (hs : s.fbOk) : (takeStep s).fbOk := by
  rw [takeStep]
  split
  · exact animStep_fbOk hs
  · exact hs

theorem stepMove_fbOk {s : State} (hs : s.fbOk) : (stepMove s).fbOk := by
  rw [stepMove]
  cases s.fPos with
  | store => exact wf_fbWrite hs ..
  | waitFc | readKind | readFpp => dsimp only; split <;> exact hs
  | clearFc | readCtr | writeCtr | zeroCtr | readDisp | load | readRem | writeRem | freeSlot => exact hs

theorem StepCase.fbOk {s t : State} (h : StepCase s t) (hs : s.fbOk) : t.fbOk := by
  cases h with
  | reset => rfl
  | commandMove p => exact (commandMoveAt_result p _).fbOk hs
  | command _ _ _ _ _ _ _ _ hresult => exact hresult.fbOk hs
  | wholeStep => exact takeStep_fbOk hs
  | stepMove => exact stepMove_fbOk hs
  | tick | commandStart | unknown | nothing => exact hs

/-- Settles O57: case by case, a step leaves the framebuffer, empties it, or writes it through the model's own writes. -/
theorem stepKeepsCanonicalFramebuffer : Obligations.StepKeepsCanonicalFramebuffer :=
  fun _ _ hs h => (case_of_step h).fbOk hs

end Sys2Proof.Machine
end

section
/-!
The outputs and the observation (`41_refresh.md` R144, R145): only a `TICK` and reset change them, and each leaves them in
agreement.
-/
namespace Sys2Proof.Machine

/-- The states drive the same lines from the same `ROW`, and their observations agree on the row last shown. -/
structure SameOutputs (s t : State) : Prop where
  row    : t.row = s.row
  rowsel : t.rowsel = s.rowsel
  serial : t.serial = s.serial
  shown  : lastShown t.trace = lastShown s.trace

theorem SameOutputs.trans {s t u : State} (hst : SameOutputs s t) (htu : SameOutputs t u) : SameOutputs s u :=
  ⟨htu.row.trans hst.row, htu.rowsel.trans hst.rowsel, htu.serial.trans hst.serial, htu.shown.trans hst.shown⟩

/-- The records and the schedule still to come are input, not output. -/
theorem sameOutputs_of_input (s : State) (rs : List Record) (sch : List Choice) :
    SameOutputs s { s with commands := rs, schedule := sch } :=
  ⟨rfl, rfl, rfl, rfl⟩

theorem MoveResult.outputs {s t : State} {p : CPos} (h : MoveResult s p t) : SameOutputs s t := by
  cases h <;> exact ⟨rfl, rfl, rfl, rfl⟩

theorem CommandResult.outputs {i : Instr} {s t : State} (h : CommandResult i s t) : SameOutputs s t := by
  cases h <;> exact ⟨rfl, rfl, rfl, rfl⟩

theorem takeStep_outputs (s : State) : SameOutputs s (takeStep s) := by
  rw [takeStep_frame]
  exact ⟨rfl, rfl, rfl, rfl⟩

theorem stepMove_outputs (s : State) : SameOutputs s (stepMove s) := by
  rw [stepMove_frame]
  exact ⟨rfl, rfl, rfl, rfl⟩

/-- Only a `TICK` and reset touch the outputs (`10_state.md` R24, R30). -/
theorem StepCase.outputs {s t : State} (h : StepCase s t) :
    (∃ rest, s.schedule = .tick :: rest ∧ t = Machine.tick { s with schedule := rest }) ∨
    (∃ rest, s.schedule = .reset :: rest ∧ t = resetBlock { s with schedule := rest }) ∨ SameOutputs s t := by
  cases h with
  | tick rest hs => exact .inl ⟨rest, hs, rfl⟩
  | reset rest hs => exact .inr (.inl ⟨rest, hs, rfl⟩)
  | commandMove p sch =>
    exact .inr (.inr ((sameOutputs_of_input s s.commands sch).trans (commandMoveAt_result p _).outputs))
  | command _ rs sch _ _ _ _ _ hresult => exact .inr (.inr ((sameOutputs_of_input s rs sch).trans hresult.outputs))
  | wholeStep rest => exact .inr (.inr ((sameOutputs_of_input s s.commands rest).trans (takeStep_outputs _)))
  | stepMove sch => exact .inr (.inr ((sameOutputs_of_input s s.commands sch).trans (stepMove_outputs _)))
  | commandStart | unknown | nothing => exact .inr (.inr ⟨rfl, rfl, rfl, rfl⟩)

theorem State.DisplayOk.of_sameOutputs {s t : State} (hs : s.DisplayOk) (h : SameOutputs s t) : t.DisplayOk where
  lines r := by rw [h.rowsel, h.shown]; exact hs.lines r
  atRow := by rw [h.row, h.shown]; exact hs.atRow
  lit x r := by simpa only [ledLit, shownLit, h.rowsel, h.serial, h.shown] using hs.lit x r

/-- Before the first `TICK` after reset every row is dark. -/
theorem displayOk_of_dark {s : State} (hdark : s.rowsel = State.reset.rowsel) (hshown : lastShown s.trace = none) :
    s.DisplayOk := by
  have hoff : ∀ r : RowIx, s.rowsel[r.val] = false := by rw [hdark]; decide
  refine ⟨fun r => ?_, fun r b d h => ?_, fun x r => ?_⟩
  · rw [hoff, hshown]
  · rw [hshown] at h; cases h
  · simp only [ledLit, hoff, Bool.and_false, shownLit, hshown]

/-- No line but that of `ROW` is asserted. -/
theorem State.DisplayOk.rowsel_of_ne {s : State} (hs : s.DisplayOk) {r : RowIx} (hr : r ≠ s.row) :
    s.rowsel[r.val] = false := by
  rw [hs.lines r]
  split
  · rfl
  · next r' b d hshown => exact decide_eq_false fun h => hr (h.trans (hs.atRow r' b d hshown))

/-- After a `TICK` the line of the new row alone is asserted (R144). -/
theorem State.DisplayOk.rowsel_tick {s : State} (hs : s.DisplayOk) (r : RowIx) :
    (tick s).rowsel[r.val] = decide (r = nextRow s.row) := by
  rw [getElem_congr_coll (tick_rowsel s), getElem_rowsel_set]
  split_ifs with hnew hold
  · exact (decide_eq_true hnew).symm
  · exact (decide_eq_false hnew).symm
  · rw [hs.rowsel_of_ne hold, decide_eq_false hnew]

theorem State.DisplayOk.tick {s : State} (hs : s.DisplayOk) : (tick s).DisplayOk where
  lines := hs.rowsel_tick
  atRow r b d h := by cases h; rfl
  lit x r := by
    rw [ledLit, hs.rowsel_tick, tick_serial, sr_sendRow _ _ (rowBytes_length ..), Bool.and_comm]
    rfl

/-- Settles O58: a `TICK` and reset establish the agreement, and every other step leaves both sides of it. -/
theorem stepKeepsDisplay : Obligations.StepKeepsDisplay := by
  intro s t hs h
  rcases (case_of_step h).outputs with ⟨rest, _, rfl⟩ | ⟨rest, _, rfl⟩ | hsame
  · exact State.DisplayOk.tick (hs.of_sameOutputs (sameOutputs_of_input s s.commands rest))
  · exact displayOk_of_dark rfl rfl
  · exact hs.of_sameOutputs hsame

/-- Settles O36: the LEDs are those of the `ShowRow` that the `TICK` records. -/
theorem ledsShowTheRowRead : Obligations.LedsShowTheRowRead := by
  intro s rest hs hsch hc
  have hs' : State.DisplayOk { s with schedule := rest } := hs.of_sameOutputs (sameOutputs_of_input s s.commands rest)
  refine ⟨_, step_tick_of_idle hsch hc, fun x r => ?_⟩
  rw [hs'.tick.lit]
  exact congrArg (decide (r = nextRow s.row) && ·) (rowPixel_rowBytes s.fb s.disp (nextRow s.row) x)

/-- Settles O52: the outputs change only in the first two cases of `StepCase.outputs`. -/
theorem onlyTickDrivesTheLines : Obligations.OnlyTickDrivesTheLines := by
  intro s t h hchange
  rcases (case_of_step h).outputs with ⟨rest, hsch, _⟩ | ⟨rest, hsch, _⟩ | hsame
  · exact ⟨rest, .inl hsch⟩
  · exact ⟨rest, .inr hsch⟩
  · rcases hchange with hrow | hrowsel | hserial
    · exact absurd hsame.row hrow
    · exact absurd hsame.rowsel hrowsel
    · exact absurd hsame.serial hserial

end Sys2Proof.Machine
end

section
/-!
The animation slot (`10_state.md` R28, `20_memory.md` R70): `C` writes it only while it is free, `F` only while it is
active, and each keeps the slot's invariant.
-/
namespace Sys2Proof.Machine

theorem Dir.kind_ne_none (d : Dir) : d.kind ≠ .none := by cases d <;> decide

/-- The direction of a slot is that of its kind, and a free slot has none. -/
theorem AnimKind.dir?_eq_some_iff {k : AnimKind} {d : Dir} : k.dir? = some d ↔ k = d.kind := by
  cases k <;> cases d <;> decide

theorem AnimKind.dir?_eq_none_iff {k : AnimKind} : k.dir? = Option.none ↔ k = .none := by cases k <;> decide

@[simp] theorem Dir.dir?_kind (d : Dir) : d.kind.dir? = some d := AnimKind.dir?_eq_some_iff.2 rfl

/-! ## What the invariant says at a position -/

/-- While the slot is free `F` is at a position that says nothing of it. -/
theorem stepPosOk_of_free {s : State} (h : stepPosOk s) (hk : s.animKind = .none) (t : State) (hf : t.fPos = s.fPos) :
    stepPosOk t := by
  have hidle : ∀ d : Dir, s.animKind ≠ d.kind := fun d he => d.kind_ne_none (he.symm.trans hk)
  rw [stepPosOk] at h ⊢
  rw [hf]
  cases hpos : s.fPos with
  | waitFc | clearFc | readKind => trivial
  | readCtr | zeroCtr | readDisp | load | store | readRem =>
    simp only [hpos] at h
    exact absurd h (hidle _)
  | readFpp | writeCtr | writeRem | freeSlot =>
    simp only [hpos] at h
    exact absurd h.1 (hidle _)

/-- A position of `C` outside the writes of a scroll says nothing of the slot. -/
theorem commandPosOk_of_writesSlot_eq_false {s : State} {p : CPos} (hp : s.cPos = some p) (h : p.writesSlot = false) :
    commandPosOk s := by
  rw [commandPosOk, hp]
  cases p with
  | scrollFpp | scrollRem | scrollCtr | scrollKind => cases h
  | setRow | showBuffer | clearBuffer | drawText | scrollTest | finish => trivial

theorem commandPosOk_of_none {s : State} (h : s.cPos = none) : commandPosOk s := by
  rw [commandPosOk, h]
  trivial

/-- The states hold the same slot, and `F` is at the same position. -/
structure SameSlot (s t : State) : Prop where
  animKind : t.animKind = s.animKind
  frameCtr : t.frameCtr = s.frameCtr
  fpp      : t.fpp = s.fpp
  pixRem   : t.pixRem = s.pixRem
  fPos     : t.fPos = s.fPos

theorem State.SlotOk.of_sameSlot {s t : State} (hs : s.SlotOk) (h : SameSlot s t) (hc : commandPosOk t) : t.SlotOk where
  pacing := by rw [h.animKind, h.frameCtr, h.fpp]; exact hs.pacing
  remaining := by rw [h.animKind, h.pixRem, h.fPos]; exact hs.remaining
  stepPos := by
    have hpos := hs.stepPos
    simpa only [stepPosOk, h.fPos, h.animKind, h.frameCtr, h.fpp, h.pixRem] using hpos
  command := hc

/-- A free slot asks nothing of its counters. -/
theorem slotOk_of_free {s : State} (hk : s.animKind = .none) (hf : stepPosOk s) (hc : commandPosOk s) : s.SlotOk :=
  ⟨fun h => absurd hk h, fun h => absurd hk h, hf, hc⟩

/-- A slot just started has all its pixels and frames before it. -/
theorem slotOk_of_started {s : State} (hctr : s.frameCtr = 0) (hrem : s.pixRem ≠ 0) (hf : stepPosOk s)
    (hc : commandPosOk s) : s.SlotOk :=
  ⟨fun _ => by rw [hctr]; exact Nat.lt_of_lt_of_le Nat.one_pos (Nat.le_max_right ..), fun _ => .inl hrem, hf, hc⟩

/-! ## Commands -/

theorem MoveResult.slotOk {s t : State} {p : CPos} (h : MoveResult s p t) (hp : s.cPos = some p) (hs : s.SlotOk) :
    t.SlotOk := by
  have hcmd := hs.command
  rw [commandPosOk, hp] at hcmd
  cases h with
  | wroteFb p' hp' | passed p' hp' =>
    exact hs.of_sameSlot ⟨rfl, rfl, rfl, rfl, rfl⟩ (commandPosOk_of_writesSlot_eq_false rfl hp')
  | wroteDisp => exact hs.of_sameSlot ⟨rfl, rfl, rfl, rfl, rfl⟩ trivial
  | foundFree _ _ _ hk hc => exact hs.of_sameSlot ⟨rfl, rfl, rfl, rfl, rfl⟩ ⟨hk, hc⟩
  | wroteFpp =>
    obtain ⟨hk, hc⟩ := hcmd
    exact slotOk_of_free hk (stepPosOk_of_free hs.stepPos hk _ rfl) ⟨hk, hc⟩
  | wroteRem =>
    obtain ⟨hk, hc⟩ := hcmd
    exact slotOk_of_free hk (stepPosOk_of_free hs.stepPos hk _ rfl) ⟨hk, hc⟩
  | wroteCtr =>
    obtain ⟨hk, hrem⟩ := hcmd
    exact slotOk_of_free hk (stepPosOk_of_free hs.stepPos hk _ rfl) ⟨hk, hrem, rfl⟩
  | wroteKind =>
    obtain ⟨hk, hrem, hctr⟩ := hcmd
    exact slotOk_of_started hctr hrem (stepPosOk_of_free hs.stepPos hk _ rfl) trivial
  | answered => exact hs.of_sameSlot ⟨rfl, rfl, rfl, rfl, rfl⟩ trivial

theorem CommandResult.slotOk {i : Instr} {s t : State} (h : CommandResult i s t) (hp : s.cPos = none) (hs : s.SlotOk) :
    t.SlotOk := by
  cases h with
  | answered | wroteFb | wroteDisp => exact hs.of_sameSlot ⟨rfl, rfl, rfl, rfl, rfl⟩ (commandPosOk_of_none hp)
  | started _ _ _ _ hk hc =>
    exact slotOk_of_started rfl hc (stepPosOk_of_free hs.stepPos hk _ rfl) (commandPosOk_of_none hp)

/-! ## STEP -/

/-- A pixel is still to be shifted, but just before the slot is freed. -/
theorem State.SlotOk.pixRem_ne_zero {s : State} (hs : s.SlotOk) (hk : s.animKind ≠ .none)
    (hf : ∀ d, s.fPos ≠ .freeSlot d) : s.pixRem ≠ 0 :=
  (hs.remaining hk).resolve_right fun ⟨d, hd⟩ => hf d hd

theorem toNat_ofNat_of_lt_toNat {c : Nat} {v : Byte} (h : c < v.toNat) : (BitVec.ofNat 8 c).toNat = c := by
  rw [BitVec.toNat_ofNat, Nat.mod_eq_of_lt (h.trans v.isLt)]

theorem animStep_slotOk {s : State} (hs : s.SlotOk) (hp : s.cPos = none) (hf : s.fPos = .waitFc) :
    (animStep s).2.SlotOk := by
  have hpos : ∀ t : State, t.fPos = s.fPos → stepPosOk t := fun t ht => by rw [stepPosOk, ht, hf]; trivial
  rw [animStep]
  split
  · exact hs
  · next d hd =>
    have hk : s.animKind ≠ .none := AnimKind.dir?_eq_some_iff.1 hd ▸ d.kind_ne_none
    split_ifs with hpace hlast
    · refine ⟨fun _ => ?_, fun _ => .inl (hs.pixRem_ne_zero hk (by simp [hf])), hpos _ rfl, commandPosOk_of_none hp⟩
      exact (toNat_ofNat_of_lt_toNat hpace).trans_lt (hpace.trans_le (Nat.le_max_left ..))
    · exact slotOk_of_free rfl (hpos _ rfl) (commandPosOk_of_none hp)
    · exact slotOk_of_started rfl hlast (hpos _ rfl) (commandPosOk_of_none hp)

theorem takeStep_slotOk {s : State} (hs : s.SlotOk) (hp : s.cPos = none) (hf : s.fPos = .waitFc) :
    (takeStep s).SlotOk := by
  rw [takeStep]
  split
  · exact animStep_slotOk (hs.of_sameSlot ⟨rfl, rfl, rfl, rfl, rfl⟩ hs.command) hp hf
  · exact hs

/-- A move of `F` that only passes to another position, at which what it has read is what the registers hold. -/
theorem State.SlotOk.of_fPos {s : State} (hs : s.SlotOk) (hp : s.cPos = none) (f : FPos)
    (hf : ∀ d, s.fPos ≠ .freeSlot d) (hpos : stepPosOk { s with fPos := f }) : State.SlotOk { s with fPos := f } :=
  ⟨hs.pacing, fun hk => .inl (hs.pixRem_ne_zero hk hf), hpos, commandPosOk_of_none hp⟩

/-- While a row is shifted, and after it, the slot keeps its direction. -/
theorem stepPosOk_afterStore {s : State} {d : Dir} (hk : s.animKind = d.kind) (b : BufIx) (r : RowIx) (k : ByteIx)
    (t : Byte) : stepPosOk { s with fPos := afterStore d b r k t } := by
  rw [afterStore]
  split
  · exact hk
  · split <;> exact hk

theorem stepMove_slotOk {s : State} (hs : s.SlotOk) (hp : s.cPos = none) : (stepMove s).SlotOk := by
  have hpos := hs.stepPos
  rw [stepPosOk] at hpos
  rw [stepMove]
  cases hf : s.fPos with
  | waitFc =>
    dsimp only
    split
    · exact hs.of_fPos hp _ (by simp [hf]) trivial
    · exact hs
  | clearFc =>
    have hs' : s.clearFc.SlotOk := hs.of_sameSlot ⟨rfl, rfl, rfl, rfl, rfl⟩ hs.command
    exact hs'.of_fPos hp _ (by simp [hf]) trivial
  | readKind =>
    dsimp only
    split
    · exact hs.of_fPos hp _ (by simp [hf]) trivial
    · next d hd => exact hs.of_fPos hp _ (by simp [hf]) (AnimKind.dir?_eq_some_iff.1 hd)
  | readCtr d =>
    simp only [hf] at hpos
    exact hs.of_fPos hp _ (by simp [hf]) ⟨hpos, rfl⟩
  | readFpp d c =>
    simp only [hf] at hpos
    dsimp only
    split
    · next hlt => exact hs.of_fPos hp _ (by simp [hf]) ⟨hpos.1, hlt⟩
    · exact hs.of_fPos hp _ (by simp [hf]) hpos.1
  | writeCtr d c =>
    simp only [hf] at hpos
    obtain ⟨_, hlt⟩ := hpos
    refine ⟨fun _ => ?_, fun hk => .inl (hs.pixRem_ne_zero hk (by simp [hf])), trivial, commandPosOk_of_none hp⟩
    exact (toNat_ofNat_of_lt_toNat hlt).trans_lt (hlt.trans_le (Nat.le_max_left ..))
  | zeroCtr d =>
    simp only [hf] at hpos
    have hrem : s.pixRem ≠ 0 := hs.pixRem_ne_zero (hpos ▸ d.kind_ne_none) (by simp [hf])
    exact slotOk_of_started rfl hrem hpos (commandPosOk_of_none hp)
  | readDisp d | load d =>
    simp only [hf] at hpos
    exact hs.of_fPos hp _ (by simp [hf]) hpos
  | readRem d =>
    simp only [hf] at hpos
    exact hs.of_fPos hp _ (by simp [hf]) ⟨hpos, rfl⟩
  | store d b r k c t =>
    simp only [hf] at hpos
    have hs' : State.SlotOk { s with fb := fbWrite s.fb b r k (shiftByte d t c) } :=
      hs.of_sameSlot ⟨rfl, rfl, rfl, rfl, rfl⟩ hs.command
    exact hs'.of_fPos hp _ (by simp [hf]) (stepPosOk_afterStore hpos b r k t)
  | writeRem d n =>
    simp only [hf] at hpos
    obtain ⟨hk, rfl⟩ := hpos
    dsimp only
    split
    · next hlast => exact ⟨hs.pacing, fun _ => .inr ⟨d, rfl⟩, ⟨hk, hlast⟩, commandPosOk_of_none hp⟩
    · next hmore => exact ⟨hs.pacing, fun _ => .inl hmore, trivial, commandPosOk_of_none hp⟩
  | freeSlot => exact slotOk_of_free rfl trivial (commandPosOk_of_none hp)

theorem StepCase.slotOk {s t : State} (h : StepCase s t) (hs : s.SlotOk) : t.SlotOk := by
  have hinput : ∀ rs sch, State.SlotOk { s with commands := rs, schedule := sch } := fun rs sch =>
    hs.of_sameSlot ⟨rfl, rfl, rfl, rfl, rfl⟩ hs.command
  cases h with
  | reset => exact slotOk_of_free rfl trivial trivial
  | commandMove p sch hp => exact (commandMoveAt_result p _).slotOk hp (hinput _ sch)
  | commandStart r _ sch =>
    exact hs.of_sameSlot ⟨rfl, rfl, rfl, rfl, rfl⟩
      (commandPosOk_of_writesSlot_eq_false rfl (writesSlot_startOfRecord s.params.verbMap r))
  | command _ rs sch _ _ hp _ _ hresult => exact hresult.slotOk hp (hinput rs sch)
  | wholeStep rest _ hp hf => exact takeStep_slotOk (hinput _ rest) hp hf
  | stepMove sch hp => exact stepMove_slotOk (hinput _ sch) hp
  | tick | unknown | nothing => exact hs.of_sameSlot ⟨rfl, rfl, rfl, rfl, rfl⟩ hs.command

/-- Settles O59: the invariant, case by case of a step. -/
theorem stepKeepsSlot : Obligations.StepKeepsSlot := fun _ _ hs h => (case_of_step h).slotOk hs

/-! ## How an active slot ends -/

/-- What a step may do to the kind of an active slot: keep it, or free it with no pixel left (`42_animation.md` R160,
R169). -/
def KeepsOrFrees (s t : State) : Prop := t.animKind = s.animKind ∨ t.animKind = .none ∧ t.pixRem = 0

theorem MoveResult.keepsOrFrees {s t : State} {p : CPos} (h : MoveResult s p t) (hp : s.cPos = some p) (hs : s.SlotOk)
    (hk : s.animKind ≠ .none) : KeepsOrFrees s t := by
  cases h with
  | wroteKind =>
    have hcmd := hs.command
    rw [commandPosOk, hp] at hcmd
    exact absurd hcmd.1 hk
  | wroteFb | passed | wroteDisp | foundFree | wroteFpp | wroteRem | wroteCtr | answered => exact .inl rfl

theorem CommandResult.keepsOrFrees {i : Instr} {s t : State} (h : CommandResult i s t) (hk : s.animKind ≠ .none) :
    KeepsOrFrees s t := by
  cases h with
  | started _ _ _ _ hfree => exact absurd hfree hk
  | answered | wroteFb | wroteDisp => exact .inl rfl

theorem animStep_keepsOrFrees (s : State) : KeepsOrFrees s (animStep s).2 := by
  rw [animStep]
  split
  · exact .inl rfl
  · split_ifs with _ hlast
    · exact .inl rfl
    · exact .inr ⟨rfl, hlast⟩
    · exact .inl rfl

theorem takeStep_keepsOrFrees (s : State) : KeepsOrFrees s (takeStep s) := by
  rw [takeStep]
  split
  · exact animStep_keepsOrFrees s.clearFc
  · exact .inl rfl

theorem stepMove_keepsOrFrees {s : State} (hs : s.SlotOk) : KeepsOrFrees s (stepMove s) := by
  rw [stepMove]
  cases hf : s.fPos with
  | freeSlot d =>
    have hpos := hs.stepPos
    simp only [stepPosOk, hf] at hpos
    exact .inr ⟨rfl, hpos.2⟩
  | waitFc | readKind | readFpp => dsimp only; split <;> exact .inl rfl
  | clearFc | readCtr | writeCtr | zeroCtr | readDisp | load | store | readRem | writeRem => exact .inl rfl

/-- Settles O54: but for reset, every case of a step keeps the kind of an active slot or frees it with no pixel left. -/
theorem activeSlotEndsOnlyByExhaustion : Obligations.ActiveSlotEndsOnlyByExhaustion := by
  intro s t hs h hk hchange
  have hinput : ∀ sch, State.SlotOk { s with schedule := sch } := fun sch =>
    hs.of_sameSlot ⟨rfl, rfl, rfl, rfl, rfl⟩ hs.command
  have hends : KeepsOrFrees s t → t.animKind = .none ∧ ((∃ rest, s.schedule = .reset :: rest) ∨ t.pixRem = 0) :=
    fun h => (h.resolve_left hchange).imp_right .inr
  cases case_of_step h with
  | reset rest hsch => exact ⟨rfl, .inl ⟨rest, hsch⟩⟩
  | commandMove p sch hp => exact hends ((commandMoveAt_result p _).keepsOrFrees hp (hinput sch) hk)
  | command _ _ _ _ _ _ _ _ hresult => exact hends (hresult.keepsOrFrees hk)
  | wholeStep => exact hends (takeStep_keepsOrFrees _)
  | stepMove sch => exact hends (stepMove_keepsOrFrees (hinput sch))
  | tick | commandStart | unknown | nothing => exact absurd rfl hchange

end Sys2Proof.Machine
end

section
/-!
Who moves, and who writes what (`10_state.md` R23, R25, `20_memory.md` R64 to R66, `70_reset_and_hazards.md` R250): read
from the cases of a step.
-/
namespace Sys2Proof.Machine

/-- Settles O49: the case of a step comes with the next state. -/
theorem everyStepHasANextState : Obligations.EveryStepHasANextState := fun s =>
  (step_case s).imp fun _ h => h.1

/-! ## Reset -/

theorem step_reset {s : State} {rest : List Choice} (hs : s.schedule = .reset :: rest) :
    step s = .next (resetBlock { s with schedule := rest }) := by
  simp only [step, act, hs]

/-- Settles O56: the step is reset, whose registers are those of the reset state. -/
theorem resetEffect : Obligations.ResetEffect := by
  intro s rest hs
  have hdark : ∀ r : RowIx, State.reset.rowsel[r.val] = false := by decide
  exact ⟨_, step_reset hs, fun _ _ _ => rfl, rfl, rfl, rfl, rfl, rfl, rfl, rfl, hdark, rfl, rfl, rfl, rfl, rfl, rfl⟩

/-- Settles O60: nothing is stored, every line is off and the slot is free. -/
theorem resetMeetsInvariant : Obligations.ResetMeetsInvariant where
  fb := rfl
  display := displayOk_of_dark rfl rfl
  slot := slotOk_of_free rfl trivial trivial

/-! ## A command in progress -/

/-- A move of `C` leaves `F`, `FC` and the schedule alone. -/
theorem MoveResult.others {s t : State} {p : CPos} (h : MoveResult s p t) :
    t.fPos = s.fPos ∧ t.fc = s.fc ∧ t.schedule = s.schedule := by
  cases h <;> exact ⟨rfl, rfl, rfl⟩

/-- A command goes on, its record at the port, or it is answered once and its record is taken away (R66, R199). -/
theorem MoveResult.goes_on_or_answered {s t : State} {p : CPos} (h : MoveResult s p t) :
    (t.cPos ≠ none ∧ t.commands = s.commands ∧ t.trace = s.trace) ∨
    (t.cPos = none ∧ t.commands = s.commands.tail ∧ ∃ st, t.trace = .status st :: s.trace) := by
  cases h with
  | answered st => exact .inr ⟨rfl, rfl, st, rfl⟩
  | wroteFb | passed | wroteDisp | foundFree | wroteFpp | wroteRem | wroteCtr | wroteKind =>
    exact .inl ⟨Option.some_ne_none _, rfl, rfl⟩

/-- Settles O32: inside a command a step is a move of it, or a tick, or it only uses up a choice. -/
theorem commandsRunOneAtATime : Obligations.CommandsRunOneAtATime := by
  intro s t p hp hreset h
  have hsome : s.cPos ≠ none := hp ▸ Option.some_ne_none p
  cases case_of_step h with
  | tick => exact .inl ⟨hsome, rfl, fun _ he => nomatch (List.cons.inj he).1⟩
  | reset rest hs => exact absurd hs (hreset rest)
  | commandMove p' sch =>
    refine (commandMoveAt_result p' { s with schedule := sch }).goes_on_or_answered.imp_left ?_
    rintro ⟨hgoes, hcommands, htrace⟩
    exact ⟨hgoes, hcommands, fun st he => List.cons_ne_self _ _ (he.symm.trans htrace)⟩
  | nothing => exact .inl ⟨hsome, rfl, fun _ => (List.cons_ne_self _ _).symm⟩
  | commandStart _ _ _ hnone | unknown _ _ _ hnone | command _ _ _ _ _ hnone | wholeStep _ _ hnone
  | stepMove _ hnone => exact absurd hnone hsome

/-- Settles O33: a choice of `F` inside a command is a move of the command (R65). -/
theorem commandHoldsOffF : Obligations.CommandHoldsOffF := by
  intro s p c rest hp hs hc
  have hstep : step s = .next (commandMoveAt p s) := by
    rcases hc with rfl | rfl
    · simp only [step, act, hs, chooseStep, hp]
    · simp only [step, act, hs, chooseStepMove, hp]
  exact ⟨_, hstep, (commandMoveAt_result p s).others⟩

/-- Settles O31: `CMD_PREEMPTIBLE` alone decides, by `tickAdmitted`, between the `TICK` and a move of the command (R64). -/
theorem tickInsideACommand : Obligations.TickInsideACommand := by
  intro s p rest hp hs
  have hadmitted : tickAdmitted s = s.params.cmdPreemptible := by rw [tickAdmitted, hp]; rfl
  refine ⟨fun hyes => ?_, fun hno => ⟨commandMoveAt p s, ?_, ?_⟩⟩
  · simp only [step, act, hs, chooseTick, hadmitted, hyes, if_true]
  · simp only [step, act, hs, chooseTick, hadmitted, hno, Bool.false_eq_true, if_false, commandMove, hp]
  · have hout := (commandMoveAt_result p s).outputs
    exact ⟨hout.row, hout.rowsel, hout.serial, (commandMoveAt_result p s).others.2.2⟩

/-! ## Who writes `DISP` and `FC` -/

theorem takeStep_disp (s : State) : (takeStep s).disp = s.disp := by rw [takeStep_frame]

theorem stepMove_disp (s : State) : (stepMove s).disp = s.disp := by rw [stepMove_frame]

theorem MoveResult.disp {s t : State} {p : CPos} (h : MoveResult s p t) : t.disp = s.disp ∨ ∃ b, p = .showBuffer b := by
  cases h with
  | wroteDisp b => exact .inr ⟨b, rfl⟩
  | wroteFb | passed | foundFree | wroteFpp | wroteRem | wroteCtr | wroteKind | answered => exact .inl rfl

theorem CommandResult.disp {i : Instr} {s t : State} (h : CommandResult i s t) :
    t.disp = s.disp ∨ ∃ buf p, i = .showBuffer buf p := by
  cases h with
  | wroteDisp b hv =>
    cases i with
    | showBuffer buf p => exact .inr ⟨buf, p, rfl⟩
    | setRow | clearBuffer | drawText | scrollLeft | scrollRight => cases hv
  | answered | wroteFb | started => exact .inl rfl

/-- Settles O51: `DISP` is written by reset and by a show-buffer, in moves or whole. -/
theorem onlyShowBufferWritesDisp : Obligations.OnlyShowBufferWritesDisp := by
  intro s t h hchange
  cases case_of_step h with
  | reset rest hs => exact .inl ⟨rest, hs⟩
  | commandMove p sch hp =>
    obtain ⟨b, rfl⟩ := (commandMoveAt_result p { s with schedule := sch }).disp.resolve_left hchange
    exact .inr (.inl ⟨b, hp⟩)
  | command r rs _ _ _ hp hr hd hresult =>
    obtain ⟨buf, payload, rfl⟩ := hresult.disp.resolve_left hchange
    exact .inr (.inr ⟨r, rs, buf, payload, hp, hr, hd⟩)
  | wholeStep => exact absurd (takeStep_disp _) hchange
  | stepMove => exact absurd (stepMove_disp _) hchange
  | tick | commandStart | unknown | nothing => exact absurd rfl hchange

theorem CommandResult.fc {i : Instr} {s t : State} (h : CommandResult i s t) : t.fc = s.fc := by cases h <;> rfl

/-- A whole `STEP` leaves `FC` clear (`42_animation.md` R162). -/
theorem takeStep_fc (s : State) : (takeStep s).fc = false := by
  rw [takeStep]
  split
  · rw [animStep_frame]; rfl
  · next h => exact Bool.eq_false_iff.2 h

/-- A move of `F` keeps `FC`, but for the one that clears it (`42_animation.md` R162). -/
theorem stepMove_fc (s : State) : (stepMove s).fc = s.fc ∨ s.fPos = .clearFc ∧ (stepMove s).fc = false := by
  rw [stepMove]
  cases s.fPos with
  | clearFc => exact .inr ⟨rfl, rfl⟩
  | waitFc | readKind | readFpp => dsimp only; split <;> exact .inl rfl
  | readCtr | writeCtr | zeroCtr | readDisp | load | store | readRem | writeRem | freeSlot => exact .inl rfl

/-- What a step does with `FC` (`10_state.md` R25): a wrapping `TICK` may set it, and reset and the two ways of `F` clear
it. -/
inductive FcCase (s t : State) : Prop where
  | kept (h : t.fc = s.fc)
  | wrapped (rest : List Choice) (hs : s.schedule = .tick :: rest) (hrow : s.row = 6) (hrow' : t.row = 0)
      (h : t.fc = true)
  | cleared (h : t.fc = false) (hby : (∃ rest, s.schedule = .reset :: rest) ∨ s.fPos = .clearFc ∨
      (s.fPos = .waitFc ∧ ∃ rest, s.schedule = .step :: rest))

theorem StepCase.fc {s t : State} (h : StepCase s t) : FcCase s t := by
  cases h with
  | tick rest hs =>
    have hfc := raisedFc_nextRow s.row s.fc
    by_cases hrow : s.row = 6
    · exact .wrapped rest hs hrow ((nextRow_eq_zero_iff s.row).2 hrow) (by rw [tick_fc, hfc, hrow]; rfl)
    · exact .kept (by rw [tick_fc, hfc, decide_eq_false hrow, Bool.false_or])
  | reset rest hs => exact .cleared rfl (.inl ⟨rest, hs⟩)
  | commandMove p sch => exact .kept (commandMoveAt_result p { s with schedule := sch }).others.2.1
  | command _ _ _ _ _ _ _ _ hresult => exact .kept hresult.fc
  | wholeStep rest hs _ hf => exact .cleared (takeStep_fc _) (.inr (.inr ⟨hf, rest, hs⟩))
  | stepMove sch =>
    rcases stepMove_fc { s with schedule := sch } with hkept | ⟨hf, hclear⟩
    · exact .kept hkept
    · exact .cleared hclear (.inr (.inl hf))
  | commandStart | unknown | nothing => exact .kept rfl

/-- Settles O53: of the three things a step does with `FC`, the one that sets it and the one that clears it. -/
theorem whoWritesFc : Obligations.WhoWritesFc := by
  intro s t h
  cases (case_of_step h).fc with
  | kept hkept =>
    rw [hkept]
    exact ⟨fun hoff hon => absurd (hoff.symm.trans hon) (by decide),
      fun hon hoff => absurd (hoff.symm.trans hon) (by decide)⟩
  | wrapped rest hs hrow hrow' hset => exact ⟨fun _ _ => ⟨rest, hs, hrow, hrow'⟩, by simp [hset]⟩
  | cleared hclear hby => exact ⟨by simp [hclear], fun _ _ => hby⟩

end Sys2Proof.Machine
end

section
/-!
The checks of a record and its rejection (`30_encoding.md` R87, R88, R92, `60_exceptions.md` R223).
-/
namespace Sys2Proof.Machine

/-! ## The operands of a record, check by check -/

theorem bufferOf_of_lt {buf : Byte} (hb : buf.toNat < 2) : bufferOf buf = .ok ⟨buf.toNat, hb⟩ := dif_pos hb

theorem bufferOf_of_not_lt {buf : Byte} (hb : ¬buf.toNat < 2) : bufferOf buf = .error .badBuffer := dif_neg hb

theorem rowOf_of_lt {row : Byte} (hr : row.toNat < 7) : rowOf row = .ok ⟨row.toNat, hr⟩ := dif_pos hr

theorem rowOf_of_not_lt {row : Byte} (hr : ¬row.toNat < 7) : rowOf row = .error .badRow := dif_neg hr

theorem setRowOperands_of_legal {buf row : Byte} {bitmap : List Byte} (hb : buf.toNat < 2) (hr : row.toNat < 7)
    (hl : bitmap.length ≤ 15) :
    setRowOperands buf (row :: bitmap) = .ok (⟨buf.toNat, hb⟩, ⟨row.toNat, hr⟩, bitmap) := by
  have hlen : ¬(row :: bitmap).length > 16 := by simp only [List.length_cons]; omega
  simp only [setRowOperands, bufferOf_of_lt hb, if_neg hlen, rowOf_of_lt hr]

theorem bareBufferOperand_of_legal {buf : Byte} (hb : buf.toNat < 2) :
    bareBufferOperand buf [] = .ok ⟨buf.toNat, hb⟩ := by
  rw [bareBufferOperand, bufferOf_of_lt hb]
  rfl

/-! ## The cause of a rejection -/

theorem causeOf_setRow (buf : Byte) (p : List Byte) :
    causeOf (.setRow buf p) =
      (if 2 ≤ buf.toNat then some .badBuffer else if p.length = 0 then some .shortPayload
       else if 16 < p.length then some .oversizePayload
       else if 7 ≤ (p.headD 0).toNat then some .badRow else none) := by
  by_cases hb : buf.toNat < 2
  · rw [if_neg (Nat.not_le_of_lt hb)]
    cases p with
    | nil => simp only [causeOf, setRowOperands, bufferOf_of_lt hb, List.length_nil, if_true]
    | cons row bitmap =>
      rw [if_neg (List.length_cons ▸ Nat.succ_ne_zero bitmap.length), List.headD_cons]
      by_cases hlen : 16 < (row :: bitmap).length
      · simp only [causeOf, setRowOperands, bufferOf_of_lt hb, gt_iff_lt, if_pos hlen]
      · rw [if_neg hlen]
        by_cases hr : row.toNat < 7
        · simp only [causeOf, setRowOperands, bufferOf_of_lt hb, gt_iff_lt, if_neg hlen, rowOf_of_lt hr,
            if_neg (Nat.not_le_of_lt hr)]
        · simp only [causeOf, setRowOperands, bufferOf_of_lt hb, gt_iff_lt, if_neg hlen, rowOf_of_not_lt hr,
            if_pos (Nat.le_of_not_lt hr)]
  · simp only [causeOf, setRowOperands, bufferOf_of_not_lt hb, if_pos (Nat.le_of_not_lt hb)]

/-- show-buffer and clear-buffer have the same checks. -/
theorem causeOf_showBuffer (buf : Byte) (p : List Byte) :
    causeOf (.showBuffer buf p) =
      (if 2 ≤ buf.toNat then some .badBuffer else if 0 < p.length then some .oversizePayload else none) := by
  by_cases hb : buf.toNat < 2
  · rw [if_neg (Nat.not_le_of_lt hb)]
    simp only [causeOf, bareBufferOperand, bufferOf_of_lt hb, gt_iff_lt]
    split_ifs <;> rfl
  · simp only [causeOf, bareBufferOperand, bufferOf_of_not_lt hb, if_pos (Nat.le_of_not_lt hb)]

theorem causeOf_drawText (buf : Byte) (p : List Byte) :
    causeOf (.drawText buf p) =
      (if 2 ≤ buf.toNat then some .badBuffer else if p.length < 2 then some .shortPayload
       else if 32 < p.length then some .oversizePayload else none) := by
  by_cases hb : buf.toNat < 2
  · rw [if_neg (Nat.not_le_of_lt hb)]
    match p with
    | [] | [_] => simp only [causeOf, drawTextOperands, bufferOf_of_lt hb]; rfl
    | x :: y :: message =>
      have hshort : ¬(x :: y :: message).length < 2 := by simp only [List.length_cons]; omega
      simp only [causeOf, drawTextOperands, bufferOf_of_lt hb, gt_iff_lt, if_neg hshort]
      split_ifs <;> rfl
  · simp only [causeOf, drawTextOperands, bufferOf_of_not_lt hb, if_pos (Nat.le_of_not_lt hb)]

/-- The two scroll verbs have the same checks. -/
theorem causeOf_scrollLeft (buf : Byte) (p : List Byte) :
    causeOf (.scrollLeft buf p) =
      (if p.length < 2 then some .shortPayload else if 2 < p.length then some .oversizePayload else none) := by
  match p with
  | [] | [_] | [_, _] => rfl
  | _ :: _ :: _ :: rest =>
    rw [if_neg (by simp only [List.length_cons]; omega), if_pos (by simp only [List.length_cons]; omega)]
    rfl

/-- Settles O6: check by check, verb by verb. -/
theorem checksOfARecord : Obligations.ChecksOfARecord := fun buf p =>
  ⟨causeOf_setRow buf p, causeOf_showBuffer buf p, causeOf_showBuffer buf p, causeOf_drawText buf p,
    causeOf_scrollLeft buf p, causeOf_scrollLeft buf p⟩

/-! ## Rejection -/

/-- A record that gives a cause is rejected with no effect (R191, R223). -/
theorem exec_of_cause {i : Instr} (hc : causeOf i ≠ none) (s : State) : exec i s = .next (s.onlyAnswered .reject) := by
  obtain ⟨t, ht, _, hstatus, hreject⟩ := everyCommandIsAnsweredOnce i s
  rw [ht, hreject (hstatus.2 (.inl hc))]

/-- A payload of an illegal length gives a cause, whatever `BUF` is (R87). -/
theorem causeOf_of_not_legalLen {i : Instr} (h : ¬legalLen i i.payload.length) : causeOf i ≠ none := by
  intro hnone
  cases i with
  | setRow buf p =>
    simp only [legalLen, Instr.payload] at h
    rw [causeOf_setRow] at hnone
    split_ifs at hnone
    omega
  | showBuffer buf p | clearBuffer buf p =>
    have hp : p.length ≠ 0 := h
    replace hnone := (causeOf_showBuffer buf p).symm.trans hnone
    split_ifs at hnone
    omega
  | drawText buf p =>
    simp only [legalLen, Instr.payload] at h
    rw [causeOf_drawText] at hnone
    split_ifs at hnone
    omega
  | scrollLeft buf p | scrollRight buf p =>
    have hp : p.length ≠ 2 := h
    replace hnone := (causeOf_scrollLeft buf p).symm.trans hnone
    split_ifs at hnone
    omega

/-- Settles O7: an illegal length is one of the causes. -/
theorem illegalLengthIsRejected : Obligations.IllegalLengthIsRejected := fun _ s h =>
  exec_of_cause (causeOf_of_not_legalLen h) s

/-- Under the table's map the reserved codes select no verb (`30_encoding.md` R88). -/
theorem decodeRecord_table_of_reserved {r : Record} (h : 6 ≤ r.verb.toNat) : decodeRecord VerbMap.table r = none := by
  have hne : ∀ c : Byte, c.toNat < 6 → r.verb ≠ c := fun c hc he => absurd (he ▸ h) (Nat.not_le_of_lt hc)
  rw [tableCodesSelectVerbs r, if_neg (hne 0 (by decide)), if_neg (hne 1 (by decide)), if_neg (hne 2 (by decide)),
    if_neg (hne 3 (by decide)), if_neg (hne 4 (by decide)), if_neg (hne 5 (by decide))]

/-- Settles O8: the record at the port is answered `REJECT` where it decodes to nothing. -/
theorem unknownVerbIsRejected : Obligations.UnknownVerbIsRejected := by
  refine ⟨fun s r rs rest hs hc hr hd => ?_, fun r h => decodeRecord_table_of_reserved h⟩
  simp only [step, act, hs, chooseCommand, hc, hr, runRecord, hd]
  rfl

end Sys2Proof.Machine
end

section
/-!
Each verb on a legal record (`43_dispatcher.md` R192 to R197).
-/
namespace Sys2Proof.Machine

/-! ## The framebuffer verbs -/

/-- Settles O10: `row_write` of the bitmap, byte by byte. -/
theorem setRowWritesTheBytesGiven : Obligations.SetRowWritesTheBytesGiven := by
  intro s buf row bitmap hfb hb hr hl
  refine ⟨rowWrite ⟨buf.toNat, hb⟩ ⟨row.toNat, hr⟩ bitmap s.fb, ?_, fun b r k => ?_⟩
  · simp only [exec, execSetRow, setRowOperands_of_legal hb hr hl]
    rfl
  · simp only [fbRead_rowWrite hfb, Fin.ext_iff, ← and_assoc]
    by_cases hrow : b.val = buf.toNat ∧ r.val = row.toNat
    · by_cases hk : k.val < bitmap.length
      · rw [if_pos hrow, if_pos ⟨hrow, hk⟩, List.getElem?_eq_getElem hk, List.getD_eq_getElem _ _ hk, Option.getD_some]
      · rw [if_pos hrow, if_neg fun h => hk h.2, List.getElem?_eq_none (Nat.le_of_not_lt hk), Option.getD_none]
    · rw [if_neg hrow, if_neg fun h => hrow h.1]

/-- Settles O11: the command on a legal buffer. -/
theorem showBufferWritesDisp : Obligations.ShowBufferWritesDisp := fun s _ _ hb => exec_showBuffer_of_legal s hb

/-- Settles O12: `buffer_clear` of the named buffer, byte by byte. -/
theorem clearBufferZeroesTheBuffer : Obligations.ClearBufferZeroesTheBuffer := by
  intro s buf hfb hb
  refine ⟨bufferClear ⟨buf.toNat, hb⟩ s.fb, ?_, fun b r k => ?_⟩
  · simp only [exec, execClearBuffer, bareBufferOperand_of_legal hb, done_eq_answer, State.answer]
  · simp only [fbRead_bufferClear hfb, Fin.ext_iff]

/-! ## The scroll verbs -/

/-- A scroll whose payload is not two bytes is rejected (`30_encoding.md` R87). -/
theorem scrollCommand_of_length_ne {p : List Byte} (hp : p.length ≠ 2) (d : Dir) (s : State) :
    scrollCommand d p s = s.onlyAnswered .reject := by
  match p with
  | [] | [_] | _ :: _ :: _ :: _ => rfl
  | [_, _] => exact absurd rfl hp

/-- A count of 0 on a free slot starts nothing (`42_animation.md` R161). -/
theorem scrollCommand_of_zero {s : State} (hk : s.animKind = .none) (d : Dir) (fpp : Byte) :
    scrollCommand d [fpp, 0] s = s.onlyAnswered .ok := by
  simp only [scrollCommand, scrollOperands, startScroll, hk, ne_eq, not_true_eq_false, if_false, if_true]
  rfl

/-- A scroll on a free slot loads it (`42_animation.md` R161). -/
theorem scrollCommand_of_free {s : State} (hk : s.animKind = .none) (d : Dir) (fpp : Byte) {count : Byte}
    (hc : count ≠ 0) :
    scrollCommand d [fpp, count] s =
      { s with fpp := fpp, pixRem := count, frameCtr := 0, animKind := d.kind }.answer .ok := by
  simp only [scrollCommand, scrollOperands, startScroll, hk, ne_eq, not_true_eq_false, if_false, hc]
  rfl

/-- Settles O21: both verbs are `scrollCommand`, which reads no `BUF`. -/
theorem scrollStartsOnAFreeSlot : Obligations.ScrollStartsOnAFreeSlot :=
  fun _ _ fpp _ hk hc =>
    ⟨congrArg Host.Outcome.next (scrollCommand_of_free hk .left fpp hc),
      congrArg Host.Outcome.next (scrollCommand_of_free hk .right fpp hc)⟩

/-- Settles O22: both verbs are `scrollCommand`, which starts nothing of 0 pixels. -/
theorem scrollOfZeroStartsNothing : Obligations.ScrollOfZeroStartsNothing :=
  fun _ _ fpp hk =>
    ⟨congrArg Host.Outcome.next (scrollCommand_of_zero hk .left fpp),
      congrArg Host.Outcome.next (scrollCommand_of_zero hk .right fpp)⟩

end Sys2Proof.Machine
end

section
/-!
What no command does (`43_dispatcher.md` R201, R202, `20_memory.md` R58), and the command that a step runs (R190).
-/
namespace Sys2Proof.Machine

/-! ## The frame -/

theorem Instr.not_showBuffer_or_scroll_of_writesFb {i : Instr}
    (hv : i.verb = .setRow ∨ i.verb = .clearBuffer ∨ i.verb = .drawText) :
    ¬(i.verb = .showBuffer ∨ i.verb = .scrollLeft ∨ i.verb = .scrollRight) := by
  rcases hv with hv | hv | hv <;> simp [hv]

/-- Settles O24: each result of a command writes the framebuffer, `DISP` or a free slot beside its answer, and only its own
verbs give it. -/
theorem commandFrame : Obligations.CommandFrame := by
  intro i s t h
  cases result_of_exec h with
  | answered =>
    exact ⟨rfl, rfl, rfl, rfl, rfl, rfl, rfl, rfl, rfl, fun _ => rfl, fun _ => ⟨rfl, rfl, rfl, rfl⟩, fun _ => rfl⟩
  | wroteFb fb' hv =>
    exact ⟨rfl, rfl, rfl, rfl, rfl, rfl, rfl, rfl, rfl, fun _ => rfl, fun _ => ⟨rfl, rfl, rfl, rfl⟩,
      fun hv' => absurd hv' (Instr.not_showBuffer_or_scroll_of_writesFb hv)⟩
  | wroteDisp b hv =>
    exact ⟨rfl, rfl, rfl, rfl, rfl, rfl, rfl, rfl, rfl, fun hv' => absurd hv hv', fun _ => ⟨rfl, rfl, rfl, rfl⟩,
      fun _ => rfl⟩
  | started d fpp count hv hk =>
    refine ⟨rfl, rfl, rfl, rfl, rfl, rfl, rfl, rfl, rfl, fun _ => rfl, fun hother => ?_, fun _ => rfl⟩
    rcases hother with ⟨hl, hr⟩ | hbusy
    · exact absurd hv (not_or.2 ⟨hl, hr⟩)
    · exact absurd hk hbusy

/-! ## The buffer written -/

theorem bufferOf_eq_ok {buf : Byte} {b : BufIx} (h : bufferOf buf = .ok b) : b.val = buf.toNat := by
  rw [bufferOf] at h
  split at h
  · cases h; rfl
  · cases h

/-- The bitmap of a legal record has at most 15 bytes. -/
theorem setRowOperands_eq_ok {buf : Byte} {p bitmap : List Byte} {b : BufIx} {row : RowIx}
    (h : setRowOperands buf p = .ok (b, row, bitmap)) : b.val = buf.toNat ∧ bitmap.length ≤ 15 := by
  rw [setRowOperands] at h
  split at h
  · cases h
  · next hb =>
    split at h
    · cases h
    · split at h
      · cases h
      · next hlen =>
        split at h
        · cases h
        · cases h; exact ⟨bufferOf_eq_ok hb, by simp only [List.length_cons] at hlen; omega⟩

theorem bareBufferOperand_buffer {buf : Byte} {p : List Byte} {b : BufIx} (h : bareBufferOperand buf p = .ok b) :
    b.val = buf.toNat := by
  rw [bareBufferOperand] at h
  split at h
  · cases h
  · next hb =>
    split at h
    · cases h
    · cases h; exact bufferOf_eq_ok hb

/-- The text of a legal record has at most 30 characters. -/
theorem drawTextOperands_eq_ok {buf : Byte} {p text : List Byte} {b : BufIx} {x y : Byte}
    (h : drawTextOperands buf p = .ok (b, x, y, text)) : b.val = buf.toNat ∧ text.length ≤ 30 := by
  rw [drawTextOperands] at h
  split at h
  · cases h
  · next hb =>
    split at h
    · next x' y' message =>
      split at h
      · cases h
      · next hlen =>
        cases h
        have htext := length_textOf_le message
        simp only [List.length_cons] at hlen
        exact ⟨bufferOf_eq_ok hb, by omega⟩
    · cases h

/-- A byte is its eight pixels, in the buffer and the row it stands in. -/
theorem fbRead_eq_of_pixel {m n : Memory} {b : BufIx} {r : RowIx} (h : ∀ x, pixel m b x r = pixel n b x r) (k : ByteIx) :
    fbRead m b r k = fbRead n b r k := by
  apply BitVec.eq_of_getLsbD_eq
  intro i hi
  have hbyte : byteOfCol ⟨8 * k.val + (7 - i), by omega⟩ = k := Fin.ext (by simp only [byteOfCol]; omega)
  have hbit : 7 - (8 * k.val + (7 - i)) % 8 = i := by omega
  simpa only [pixel, hbyte, hbit] using h ⟨8 * k.val + (7 - i), by omega⟩

/-- Settles O25: set-row, clear-buffer and draw-text write only the buffer of their operands, which is that of `BUF`. -/
theorem commandWritesOnlyTheNamedBuffer : Obligations.CommandWritesOnlyTheNamedBuffer := by
  intro i s t hfb h b r k hb
  cases i with
  | setRow buf p =>
    simp only [exec, execSetRow] at h
    split at h <;> obtain rfl := Host.Outcome.next.inj h
    · rfl
    · next b' row bitmap hop =>
      have hne : b ≠ b' := fun he => hb (he ▸ (setRowOperands_eq_ok hop).1)
      rw [done_eq_answer, answer_fb, fbRead_rowWrite hfb, if_neg fun he => hne he.1]
  | clearBuffer buf p =>
    simp only [exec, execClearBuffer] at h
    split at h <;> obtain rfl := Host.Outcome.next.inj h
    · rfl
    · next b' hop =>
      have hne : b ≠ b' := fun he => hb (he ▸ bareBufferOperand_buffer hop)
      rw [done_eq_answer, answer_fb, fbRead_bufferClear hfb, if_neg hne]
  | drawText buf p =>
    simp only [exec, execDrawText] at h
    split at h <;> obtain rfl := Host.Outcome.next.inj h
    · rfl
    · next b' x y text hop =>
      obtain ⟨hbuf, hlen⟩ := drawTextOperands_eq_ok hop
      have hne : b ≠ b' := fun he => hb (he ▸ hbuf)
      refine fbRead_eq_of_pixel (fun X => ?_) k
      rw [done_eq_answer, answer_fb, pixel_drawText hfb _ _ _ _ _ hlen, if_neg hne]
  | showBuffer | scrollLeft | scrollRight =>
    obtain ⟨-, -, -, -, -, -, -, -, -, -, -, hkept⟩ := commandFrame _ _ _ h
    rw [hkept (by simp [Instr.verb])]

/-! ## What no command reads -/

/-- A scroll reads neither `ROW` nor `FC`. -/
theorem scrollCommand_ignores_refresh (d : Dir) (p : List Byte) (s : State) (row : RowIx) (fc : Bool) :
    scrollCommand d p { s with row := row, fc := fc } = { scrollCommand d p s with row := row, fc := fc } := by
  by_cases hp : p.length = 2
  · obtain ⟨fpp, count, rfl⟩ := List.length_eq_two.1 hp
    by_cases hk : s.animKind = .none
    · by_cases hc : count = 0
      · subst hc
        rw [scrollCommand_of_zero (s := { s with row := row, fc := fc }) hk, scrollCommand_of_zero hk]; rfl
      · rw [scrollCommand_of_free (s := { s with row := row, fc := fc }) hk d fpp hc, scrollCommand_of_free hk d fpp hc]
        rfl
    · rw [scrollCommand_of_busy (s := { s with row := row, fc := fc }) hk, scrollCommand_of_busy hk]; rfl
  · rw [scrollCommand_of_length_ne hp, scrollCommand_of_length_ne hp]; rfl

/-- What a scroll answers and the kind it leaves do not depend on the slot's counters. -/
theorem scrollCommand_ignores_counters (d : Dir) (p : List Byte) (s : State) (ctr fpp rem : Byte) :
    (scrollCommand d p { s with frameCtr := ctr, fpp := fpp, pixRem := rem }).status = (scrollCommand d p s).status ∧
    (scrollCommand d p { s with frameCtr := ctr, fpp := fpp, pixRem := rem }).animKind =
      (scrollCommand d p s).animKind := by
  by_cases hp : p.length = 2
  · obtain ⟨fpp', count, rfl⟩ := List.length_eq_two.1 hp
    by_cases hk : s.animKind = .none
    · by_cases hc : count = 0
      · subst hc
        rw [scrollCommand_of_zero (s := { s with frameCtr := ctr, fpp := fpp, pixRem := rem }) hk,
          scrollCommand_of_zero hk]
        exact ⟨rfl, rfl⟩
      · rw [scrollCommand_of_free (s := { s with frameCtr := ctr, fpp := fpp, pixRem := rem }) hk d fpp' hc,
          scrollCommand_of_free hk d fpp' hc]
        exact ⟨rfl, rfl⟩
    · rw [scrollCommand_of_busy (s := { s with frameCtr := ctr, fpp := fpp, pixRem := rem }) hk,
        scrollCommand_of_busy hk]
      exact ⟨rfl, rfl⟩
  · rw [scrollCommand_of_length_ne hp, scrollCommand_of_length_ne hp]
    exact ⟨rfl, rfl⟩

/-- A verb that is no scroll does to the framebuffer and `DISP` what its record and the glyph table say, and reads no other
part of the state (R202). -/
theorem exec_of_not_scroll {i : Instr} (hl : i.verb ≠ .scrollLeft) (hr : i.verb ≠ .scrollRight) :
    ∃ (write : GlyphTable → Memory → Memory) (select : BufIx → BufIx) (st : Status), ∀ s : State,
      exec i s = .next ({ s with fb := write s.params.glyph s.fb, disp := select s.disp }.answer st) := by
  cases i with
  | setRow buf p =>
    simp only [exec, execSetRow]
    cases setRowOperands buf p with
    | error => exact ⟨fun _ m => m, id, .reject, fun _ => rfl⟩
    | ok operands => exact ⟨fun _ => rowWrite operands.1 operands.2.1 operands.2.2, id, .ok, fun _ => rfl⟩
  | showBuffer buf p =>
    simp only [exec, execShowBuffer]
    cases bareBufferOperand buf p with
    | error => exact ⟨fun _ m => m, id, .reject, fun _ => rfl⟩
    | ok b => exact ⟨fun _ m => m, fun _ => b, .ok, fun _ => rfl⟩
  | clearBuffer buf p =>
    simp only [exec, execClearBuffer]
    cases bareBufferOperand buf p with
    | error => exact ⟨fun _ m => m, id, .reject, fun _ => rfl⟩
    | ok b => exact ⟨fun _ => bufferClear b, id, .ok, fun _ => rfl⟩
  | drawText buf p =>
    simp only [exec, execDrawText]
    cases drawTextOperands buf p with
    | error => exact ⟨fun _ m => m, id, .reject, fun _ => rfl⟩
    | ok operands =>
      exact ⟨fun glyph => drawText glyph operands.1 operands.2.1 operands.2.2.1 operands.2.2.2, id, .ok, fun _ => rfl⟩
  | scrollLeft => exact absurd rfl hl
  | scrollRight => exact absurd rfl hr

/-- Settles O26: a verb that is no scroll reads neither `ROW`, `FC` nor the slot, and a scroll reads of the state only
whether the slot is free, and what it answers when it is not. -/
theorem commandsIgnoreRefreshAndSlot : Obligations.CommandsIgnoreRefreshAndSlot := by
  intro i s t row fc kind ctr fpp rem h
  by_cases hv : i.verb ≠ .scrollLeft ∧ i.verb ≠ .scrollRight
  · obtain ⟨write, select, st, heq⟩ := exec_of_not_scroll hv.1 hv.2
    rw [heq] at h
    obtain rfl := Host.Outcome.next.inj h
    exact ⟨heq _, fun _ _ => heq _, _, heq _, rfl, rfl⟩
  · cases i with
    | scrollLeft buf p =>
      cases h
      exact ⟨congrArg _ (scrollCommand_ignores_refresh .left p s row fc), fun hne => absurd rfl hne, _, rfl,
        scrollCommand_ignores_counters .left p s ctr fpp rem⟩
    | scrollRight buf p =>
      cases h
      exact ⟨congrArg _ (scrollCommand_ignores_refresh .right p s row fc), fun _ hne => absurd rfl hne, _, rfl,
        scrollCommand_ignores_counters .right p s ctr fpp rem⟩
    | setRow | showBuffer | clearBuffer | drawText => simp [Instr.verb] at hv

/-! ## The command that a step runs -/

/-- Settles O27: chosen or pending, the record at the port is run. -/
theorem stepRunsTheDecodedCommand : Obligations.StepRunsTheDecodedCommand := by
  refine fun s r rs i hc hr hd => ⟨fun rest hs => step_command_of_idle hs hc hr hd, fun hs => ?_⟩
  simp only [step, act, hs, noChoice, hc, hr, runRecord, hd]

/-- The decoder of words reads the record that the transport presents of them, and decodes it. -/
theorem decodeRecord_recordOfWord {nbits w : Nat} {i : Instr} (h : decodeTableWord nbits w = some i) :
    decodeRecord VerbMap.table (recordOfWord nbits w) = some i := by
  rw [decodeTableWord] at h
  split at h
  · next i' rest hdecode =>
    cases h
    obtain ⟨r, hrecord, hr⟩ := decode_eq_ok_iff.1 hdecode
    rw [recordOfWord, hrecord]
    exact hr
  · cases h

/-- Settles O28: the record placed stands first at the port and its command first in the schedule. -/
theorem placedWordIsRunNext : Obligations.PlacedWordIsRunNext := by
  intro s nbits w i hmap hd
  have hrecord : decodeRecord (s.withFetchWord nbits w).params.verbMap (recordOfWord nbits w) = some i := by
    rw [State.withFetchWord, State.present, hmap]
    exact decodeRecord_recordOfWord hd
  exact step_command_of_idle rfl rfl rfl hrecord

end Sys2Proof.Machine
end

section
/-!
Clipping (`40_framebuffer_render.md` R114, R115, R120): a pixel outside the display is skipped, and so is what lies wholly
outside; and the cursor, which the operand ranges keep from wrapping (R122).
-/
namespace Sys2Proof.Machine

/-! ## The clipped rectangle -/

/-- A loop whose last rounds change nothing is the loop without them. -/
theorem foldl_range_of_fixed {α : Type} {f : α → Nat → α} {k n : Nat} (hkn : k ≤ n)
    (h : ∀ a i, k ≤ i → i < n → f a i = a) (a : α) : (List.range n).foldl f a = (List.range k).foldl f a := by
  induction n, hkn using Nat.le_induction with
  | base => rfl
  | succ n hkn ih =>
    rw [List.range_succ, List.foldl_append, List.foldl_cons, List.foldl_nil, h _ n hkn (Nat.lt_succ_self n),
      ih fun a i hki hin => h a i hki (Nat.lt_succ_of_lt hin)]

theorem putClipped_outside {X Y : Nat} (h : 120 ≤ X ∨ 7 ≤ Y) (m : Memory) (b : BufIx) (p : Bool) :
    putClipped m b X Y p = m :=
  dif_neg (by omega)

theorem blitRow_clip (src : List Byte) (ss sx sy : Nat) {w w' : Nat} (hw : w' ≤ w) (b : BufIx) {dx : Nat}
    (hout : ∀ i, w' ≤ i → i < w → 120 ≤ dx + i) (Y : Nat) (m : Memory) :
    blitRow src ss sx sy w b dx Y m = blitRow src ss sx sy w' b dx Y m :=
  foldl_range_of_fixed hw (fun m i hi hiw => putClipped_outside (.inl (hout i hi hiw)) m b _) m

theorem blitRow_below (src : List Byte) (ss sx sy w : Nat) (b : BufIx) (dx : Nat) {Y : Nat} (hY : 7 ≤ Y) (m : Memory) :
    blitRow src ss sx sy w b dx Y m = m :=
  foldl_range_of_fixed (Nat.zero_le w) (fun m _ _ _ => putClipped_outside (.inr hY) m b _) m

theorem blitRows_clip (src : List Byte) (ss sx sy : Nat) {w w' h h' : Nat} (hw : w' ≤ w) (hh : h' ≤ h) (b : BufIx)
    {dx dy : Nat} (hright : ∀ i, w' ≤ i → i < w → 120 ≤ dx + i) (hbelow : ∀ j, h' ≤ j → j < h → 7 ≤ dy + j)
    (m : Memory) : blitRows src ss sx sy w h b dx dy m = blitRows src ss sx sy w' h' b dx dy m := by
  simp only [blitRows, blitRow_clip src ss sx _ hw b hright]
  exact foldl_range_of_fixed hh (fun m j hj hjh => blitRow_below src ss sx _ w' b dx (hbelow j hj hjh) m) m

/-- A rectangle within one that lies inside the bitmap lies inside it too (R123). -/
theorem sourceInside_mono {src : List Byte} {ss sx sy w w' h h' : Nat} (hsrc : sourceInside src ss sx sy w h)
    (hw : w' ≤ w) (hh : h' ≤ h) : sourceInside src ss sx sy w' h' := by
  obtain rfl | rfl | ⟨hx, hy⟩ := hsrc
  · exact .inl (Nat.le_zero.1 hw)
  · exact .inr (.inl (Nat.le_zero.1 hh))
  · have hrows : (sy + h') * ss ≤ (sy + h) * ss := Nat.mul_le_mul_right ss (by omega)
    exact .inr (.inr ⟨by omega, hrows.trans hy⟩)

/-- Settles O18: the columns and the rows that clipping drops are those whose every pixel is skipped. -/
theorem blitOfClippedRectangle : Obligations.BlitOfClippedRectangle := by
  intro src ss sx sy w h hsrc b dx dy m
  have hw : (if dx < 120 then min w (120 - dx) else 0) ≤ w := by split_ifs <;> omega
  have hh : (if dy < 7 then min h (7 - dy) else 0) ≤ h := by split_ifs <;> omega
  refine ⟨sourceInside_mono hsrc hw hh, blitRows_clip src ss sx sy hw hh b (fun i hi hiw => ?_) (fun j hj hjh => ?_) m⟩
  · split_ifs at hi <;> omega
  · split_ifs at hj <;> omega

/-- Settles O20: of the three pixels only column 119 is left by the clipping, and it is set. -/
theorem blitAtTheRightEdge : Obligations.BlitAtTheRightEdge := by
  intro m b hsrc hm b' r k
  have hset : ∀ v : Byte, putBit v 119 true = v ||| 0x01 := by decide
  have hblit : blit [0xE0] 1 0 0 3 1 hsrc b 119 0 m = setpix m b 119 0 true :=
    blitRows_clip [0xE0] 1 0 0 (w' := 1) (h' := 1) (by decide) (by decide) b (by omega) (by omega) m
  have hbyte : byteOfCol 119 = 14 := rfl
  rw [hblit, setpix, fbRead_fbWrite hm, hset, hbyte]
  split
  · next h => rw [h.2.1, h.2.2]
  · rfl

/-! ## A text outside the display -/

theorem blit_outside {src : List Byte} {ss sx sy w h : Nat} (hsrc : sourceInside src ss sx sy w h) (b : BufIx)
    {dx dy : Nat} (hout : 120 ≤ dx ∨ 7 ≤ dy) (m : Memory) : blit src ss sx sy w h hsrc b dx dy m = m := by
  rcases hout with hx | hy
  · refine (blitRows_clip src ss sx sy (Nat.zero_le w) (Nat.le_refl h) b (by omega) (by omega) m).trans ?_
    exact foldl_range_of_fixed (Nat.zero_le h) (fun _ _ _ _ => rfl) m
  · exact blitRows_clip src ss sx sy (Nat.le_refl w) (Nat.zero_le h) b (by omega) (by omega) m

/-- The cursor after a glyph, where 16 bits hold it. -/
theorem toNat_advance {cx : BitVec 16} (h : cx.toNat + 255 < 65536) (g : Glyph) :
    (advance cx g).toNat = cx.toNat + g.adv.toNat := by
  have hadv := g.adv.isLt
  rw [advance, BitVec.toNat_add, BitVec.toNat_setWidth]
  omega

/-- The cursor only moves right, so that a text that starts outside stays outside. -/
theorem drawTextFrom_outside (t : GlyphTable) (b : BufIx) {y : Byte} {cx : BitVec 16} {text : List Byte}
    (hcx : cx.toNat + 255 * text.length < 65536) (hout : 120 ≤ cx.toNat ∨ 7 ≤ y.toNat) (m : Memory) :
    drawTextFrom t b y cx text m = m := by
  induction text generalizing cx with
  | nil => rfl
  | cons c cs ih =>
    rw [List.length_cons, Nat.mul_succ, ← Nat.add_assoc] at hcx
    have hto := toNat_advance (cx := cx) (by omega) (glyphOf t c)
    have hadv := (glyphOf t c).adv.isLt
    rw [drawTextFrom, drawGlyph, blit_outside _ b hout, ih (by omega) (by omega)]

theorem toNat_setWidth_byte (x : Byte) : (x.setWidth 16).toNat = x.toNat := by
  rw [BitVec.toNat_setWidth]; omega

/-- Settles O14: the text drawn is one that starts outside. -/
theorem textOutsideDrawsNothing : Obligations.TextOutsideDrawsNothing := by
  intro s buf x y message hb hl hout
  have hlen := (length_textOf_le message).trans hl
  rw [exec_drawText_of_legal s hb x y hl, drawText,
    drawTextFrom_outside _ _ (by rw [toNat_setWidth_byte]; omega) (by rwa [toNat_setWidth_byte])]
  rfl

/-! ## The cursor -/

theorem toNat_cursorAfter (t : GlyphTable) {cx : BitVec 16} {text : List Byte}
    (hcx : cx.toNat + 255 * text.length < 65536) :
    (cursorAfter t cx text).toNat = cx.toNat + (text.map fun c => (glyphOf t c).adv.toNat).sum := by
  induction text generalizing cx with
  | nil => rfl
  | cons c cs ih =>
    rw [List.length_cons, Nat.mul_succ, ← Nat.add_assoc] at hcx
    have hto := toNat_advance (cx := cx) (by omega) (glyphOf t c)
    have hadv := (glyphOf t c).adv.isLt
    have hstep : cursorAfter t cx (c :: cs) = cursorAfter t (advance cx (glyphOf t c)) cs := rfl
    rw [hstep, ih (by omega), hto, List.map_cons, List.sum_cons, Nat.add_assoc]

/-- Settles O17: at most 30 advances, each at most 255, from at most 255. -/
theorem cursorNeverWraps : Obligations.CursorNeverWraps := by
  intro t x text hl
  have hcursor := toNat_cursorAfter t (cx := x.setWidth 16) (text := text) (by rw [toNat_setWidth_byte]; omega)
  have hsum := List.sum_le_card_nsmul (text.map fun c => (glyphOf t c).adv.toNat) 255 fun n hn => by
    obtain ⟨c, _, rfl⟩ := List.mem_map.1 hn
    exact Nat.le_of_lt_succ (glyphOf t c).adv.isLt
  rw [List.length_map, smul_eq_mul] at hsum
  rw [toNat_setWidth_byte] at hcursor
  exact ⟨hcursor, by omega⟩

end Sys2Proof.Machine
end

section
/-!
Serialisation and the frame cycle (`41_refresh.md` R142, R146, `10_state.md` R31), and the addresses of the framebuffer
(`20_memory.md` R51, R58).
-/
namespace Sys2Proof.Machine

/-- The bit sent in place `x` is pixel `x` of the row (R142). -/
theorem getElem_rowBits_pixel (m : Memory) (b : BufIx) (r : RowIx) (x : ColIx) :
    (rowBits (rowBytes m b r))[x.val]? = some (pixel m b x r) := by
  rw [getElem_rowBits _ _ (by rw [rowBytes_length]; omega), ← rowPixel_rowBytes]
  rfl

/-- After at least one pulse `SCLK` is 0 (R142). -/
theorem sclk_foldl_sendBit {bits : List Bool} (h : bits ≠ []) (l : Serial) : (bits.foldl sendBit l).sclk = false := by
  rw [← List.dropLast_append_getLast h, List.foldl_append]
  rfl

/-- One pulse puts its bit on `SDATA` and in `SR[0]`, and moves the chain one place (R31). -/
theorem sendBit_effect (l : Serial) (p : Bool) :
    (sendBit l p).sdata = p ∧ (sendBit l p).sr.getLsbD 0 = p ∧
      ∀ i, i < 119 → (sendBit l p).sr.getLsbD (i + 1) = l.sr.getLsbD i := by
  refine ⟨rfl, ?_, fun i hi => ?_⟩
  · simp [sendBit]
  · have hlt : i + 1 < 120 := by omega
    simp only [sendBit, BitVec.getLsbD_shiftConcat, hlt, decide_true, Bool.true_and, Nat.add_sub_cancel,
      Nat.succ_ne_zero, if_false]

/-- Settles O35: the bits of the row in order, the place where each ends, and the effect of one pulse. -/
theorem serialisationOrder : Obligations.SerialisationOrder := by
  intro l m b r
  have hlen : (rowBits (rowBytes m b r)).length = 120 := by rw [rowBits_length, rowBytes_length]
  refine ⟨⟨_, hlen, getElem_rowBits_pixel m b r, rfl⟩, fun x => ?_, ?_, sendBit_effect⟩
  · rw [sr_sendRow _ _ (rowBytes_length m b r), rowPixel_rowBytes]
  · exact sclk_foldl_sendBit (List.ne_nil_of_length_pos (by omega)) l

/-- `ROW` goes one up, or from 6 to 0. -/
theorem val_nextRow (r : RowIx) : (nextRow r).val = if r.val = 6 then 0 else r.val + 1 := by revert r; decide

/-- The event of a `TICK` counts as a wrap exactly from row 6 (R143). -/
theorem countP_wraps_showRow (r : RowIx) (b : BufIx) (d : List Byte) :
    [Obs.showRow (nextRow r) b d].countP Obs.wraps = if r.val = 6 then 1 else 0 := by
  have hwraps : (Obs.showRow (nextRow r) b d).wraps = true ↔ r.val = 6 := by
    rw [Obs.wraps, decide_eq_true_eq, nextRow_eq_zero_iff, Fin.ext_iff]
    rfl
  simp only [List.countP_cons, List.countP_nil, hwraps, Nat.zero_add]

/-- Settles O37: by induction on the ticks, over the effect of the first. -/
theorem fullCycle : Obligations.FullCycle := by
  intro n
  induction n with
  | zero =>
    intro s rest hc hs
    have hbelow : ¬7 ≤ s.row.val + 0 := Nat.not_le_of_lt s.row.isLt
    exact ⟨s, [], rfl, (Nat.mod_eq_of_lt s.row.isLt).symm, by rw [decide_eq_false hbelow, Bool.or_false], hs, rfl, rfl,
      (Nat.div_eq_of_lt s.row.isLt).symm⟩
  | succ n ih =>
    intro s rest hc hs
    rw [List.replicate_succ, List.cons_append] at hs
    have hstep := step_tick_of_idle hs hc
    obtain ⟨t, evs, hrun, hrow, hfc, hsch, htrace, hlen, hcount⟩ :=
      ih (tick { s with schedule := List.replicate n .tick ++ rest }) rest hc rfl
    have hrow7 := s.row.isLt
    have hnext := val_nextRow s.row
    simp only [tick_row] at hrow hfc hcount
    refine ⟨t, evs ++ [.showRow (nextRow s.row) s.disp (rowBytes s.fb s.disp (nextRow s.row))],
      (run_succ hstep n).trans hrun, ?_, ?_, hsch, ?_, ?_, ?_⟩
    · split at hnext <;> omega
    · have hwrap : decide (7 ≤ s.row.val + (n + 1)) = (decide (s.row = 6) || decide (7 ≤ (nextRow s.row).val + n)) := by
        rw [← Bool.decide_or, decide_eq_decide, Fin.ext_iff, show (6 : RowIx).val = 6 from rfl]
        split at hnext <;> omega
      rw [hfc, tick_fc, raisedFc_nextRow, hwrap, Bool.or_assoc]
      exact Bool.or_left_comm ..
    · rw [htrace, tick_trace, List.append_assoc]
      rfl
    · rw [List.length_append, hlen]
      rfl
    · rw [List.countP_append, hcount, countP_wraps_showRow]
      split at hnext <;> split <;> omega

/-- Settles O50: an address is below 210 exactly when it is that of a byte of a buffer. -/
theorem existingAddresses : Obligations.ExistingAddresses := by
  refine ⟨fun m a v ha => ?_, fun m b r k v => ?_⟩
  · exact ⟨if_neg (Nat.not_lt_of_le ha), if_neg (Nat.not_lt_of_le ha)⟩
  · exact ⟨if_pos (fbAddr_lt b r k), if_pos (fbAddr_lt b r k)⟩

end Sys2Proof.Machine
end

section
/-!
`step()` and the whole `STEP` (`42_animation.md` R162 to R168): the cases of `step()`, and the choices of `F` taken with no
command in progress.
-/
namespace Sys2Proof.Machine

/-! ## The cases of `step()` -/

theorem animStep_of_free {s : State} (hk : s.animKind = .none) : animStep s = (.idle, s) := by
  simp only [animStep, hk, AnimKind.dir?]

/-- A pacing step (R164). -/
theorem animStep_of_pacing {s : State} {d : Dir} (hk : s.animKind = d.kind) (hp : s.frameCtr.toNat + 1 < s.fpp.toNat) :
    animStep s = (.stillActive, { s with frameCtr := BitVec.ofNat 8 (s.frameCtr.toNat + 1) }) := by
  simp only [animStep, hk, Dir.dir?_kind, if_pos hp]

/-- A shifting step, which frees the slot with the last pixel (R163, R168). -/
theorem animStep_of_shifting {s : State} {d : Dir} (hk : s.animKind = d.kind)
    (hp : ¬s.frameCtr.toNat + 1 < s.fpp.toNat) :
    animStep s = (if s.pixRem - 1 = 0 then .finished else .stillActive,
      { s with
        frameCtr := 0, fb := shiftBuffer d s.disp s.fb, pixRem := s.pixRem - 1
        animKind := if s.pixRem - 1 = 0 then .none else d.kind }) := by
  simp only [animStep, hk, Dir.dir?_kind, if_neg hp]
  split <;> rfl

theorem AnimKind.exists_dir {k : AnimKind} (hk : k ≠ .none) : ∃ d : Dir, k = d.kind := by
  cases k with
  | none => exact absurd rfl hk
  | scrollLeft => exact ⟨.left, rfl⟩
  | scrollRight => exact ⟨.right, rfl⟩

/-- Settles O43: a free slot, a pacing step, and a shifting step that frees the slot or does not. -/
theorem stepAnswers : Obligations.StepAnswers := by
  intro s
  by_cases hk : s.animKind = .none
  · simp [animStep_of_free hk, hk]
  · obtain ⟨d, hd⟩ := AnimKind.exists_dir hk
    by_cases hp : s.frameCtr.toNat + 1 < s.fpp.toNat
    · simp [animStep_of_pacing hd hp, hk]
    · rw [animStep_of_shifting hd hp]
      by_cases hlast : s.pixRem - 1 = 0
      · simp only [if_pos hlast]; simp [hk]
      · simp only [if_neg hlast]; simp [hk, d.kind_ne_none]

/-! ## The choices of `F` -/

/-- A whole `STEP` chosen with no command and no `STEP` in progress. -/
theorem step_step_of_idle {s : State} {rest : List Choice} (hc : s.cPos = none) (hf : s.fPos = .waitFc)
    (hs : s.schedule = .step :: rest) : step s = .next (takeStep { s with schedule := rest }) := by
  simp only [step, act, hs, chooseStep, hc, hf]

/-- A move of `F` chosen with no command in progress. -/
theorem step_stepMove_of_idle {s : State} {rest : List Choice} (hc : s.cPos = none)
    (hs : s.schedule = .stepMove :: rest) : step s = .next (stepMove { s with schedule := rest }) := by
  simp only [step, act, hs, chooseStepMove, hc]

theorem takeStep_of_fc {s : State} (h : s.fc = true) : takeStep s = (animStep s.clearFc).2 := if_pos h

theorem takeStep_of_not_fc {s : State} (h : s.fc = false) : takeStep s = s := if_neg (Bool.eq_false_iff.1 h)

/-- With `FC` set, a whole `STEP` clears it and leaves what `step()` leaves (R162). -/
theorem step_step_of_animStep {s t : State} {rest : List Choice} {answer : StepResult} (hc : s.cPos = none)
    (hf : s.fPos = .waitFc) (hfc : s.fc = true) (hs : s.schedule = .step :: rest)
    (ht : animStep { s with fc := false, schedule := rest } = (answer, t)) : step s = .next t := by
  have htake := (takeStep_of_fc (s := { s with schedule := rest }) hfc).trans (congrArg Prod.snd ht)
  rw [step_step_of_idle hc hf hs, htake]

/-- Settles O39: `F` waits by a whole `STEP` and by a move alike. -/
theorem fWaitsForFc : Obligations.FWaitsForFc := by
  intro s c rest hc hf hfc hs hchoice
  rcases hchoice with rfl | rfl
  · exact (step_step_of_idle hc hf hs).trans (congrArg Host.Outcome.next (takeStep_of_not_fc hfc))
  · simp only [step_stepMove_of_idle hc hs, stepMove, hf, stepEnabled, hfc, Bool.false_eq_true, if_false]

/-- Settles O40: `step()` answers `Idle` and writes nothing. -/
theorem stepOfAnIdleSlot : Obligations.StepOfAnIdleSlot := fun _ _ hc hf hfc hk hs =>
  step_step_of_animStep hc hf hfc hs (animStep_of_free hk)

/-- Settles O41: the counter stays below `FPP`, so that eight bits hold it. -/
theorem pacingStep : Obligations.PacingStep := by
  intro s rest hc hf hfc hk hp hs
  obtain ⟨d, hd⟩ := AnimKind.exists_dir hk
  exact ⟨_, toNat_ofNat_of_lt_toNat hp, step_step_of_animStep hc hf hfc hs (animStep_of_pacing hd hp)⟩

/-- A count that is not 0 goes down by one. -/
theorem toNat_sub_one {v : Byte} (h : v ≠ 0) : (v - 1).toNat = v.toNat - 1 :=
  BitVec.toNat_sub_of_le (BitVec.le_def.2 (Nat.one_le_iff_ne_zero.2 fun h0 => h (BitVec.eq_of_toNat_eq h0)))

/-- Settles O42: the shifting step, with the pixels of `shift_buffer`. -/
theorem shiftingStep : Obligations.ShiftingStep := by
  intro s d rest hfb hc hf hfc hd hp hrem hs
  refine ⟨shiftBuffer d s.disp s.fb, s.pixRem - 1, ?_, toNat_sub_one hrem, fun b x r => ?_⟩
  · simp only [← sub_eq_zero (a := s.pixRem)]
    exact step_step_of_animStep hc hf hfc hs (animStep_of_shifting hd (Nat.not_lt_of_le hp))
  · rw [pixel_shiftBuffer hfb]
    split
    · next hb => rw [hb]
    · rfl

/-! ## `F` and the other agents -/

/-- `F` finds `FC` set (R162). -/
theorem stepMove_of_waitFc {s : State} (hf : s.fPos = .waitFc) (hfc : s.fc = true) :
    stepMove s = { s with fPos := .clearFc } := by
  simp only [stepMove, hf, stepEnabled, hfc, if_true]

theorem tick_fc_of_fc {s : State} (h : s.fc = true) : (tick s).fc = true := by
  rw [tick_fc, raisedFc_nextRow, h, Bool.or_true]

/-- Settles O47: `F` reads `FC` as set before the tick and after it, and either way its clear is the third step. -/
theorem tickInsideTheHandOff : Obligations.TickInsideTheHandOff := by
  intro s rest hc hf hfc
  have hread (sch : List Choice) : step { s with schedule := .stepMove :: sch } =
      .next { s with fPos := .clearFc, schedule := sch } := by
    rw [step_stepMove_of_idle (s := { s with schedule := .stepMove :: sch }) hc rfl]
    exact congrArg _ (stepMove_of_waitFc (s := { s with schedule := sch }) hf hfc)
  have htick (f : FPos) (sch : List Choice) : step { s with fPos := f, schedule := .tick :: sch } =
      .next (tick { s with fPos := f, schedule := sch }) :=
    step_tick_of_idle (s := { s with fPos := f, schedule := .tick :: sch }) rfl hc
  have hread' (sch : List Choice) : step (tick { s with schedule := .stepMove :: sch }) =
      .next (tick { s with fPos := .clearFc, schedule := sch }) := by
    rw [step_stepMove_of_idle (s := tick { s with schedule := .stepMove :: sch }) hc rfl]
    exact congrArg _ (stepMove_of_waitFc (s := tick { s with schedule := sch }) hf (tick_fc_of_fc hfc))
  have hleft : run 3 { s with schedule := [.stepMove, .tick, .stepMove] ++ rest } =
      run 1 (tick { s with fPos := .clearFc, schedule := .stepMove :: rest }) :=
    (run_succ (hread _) 2).trans (run_succ (htick .clearFc _) 1)
  have hright : run 3 { s with schedule := [.tick, .stepMove, .stepMove] ++ rest } =
      run 1 (tick { s with fPos := .clearFc, schedule := .stepMove :: rest }) :=
    (run_succ (htick s.fPos _) 2).trans (run_succ (hread' _) 1)
  exact hleft.trans hright.symm

/-- Settles O48: the command keeps the position of `F` and the canonical form, and the store follows. -/
theorem lostUpdate : Obligations.LostUpdate := by
  intro s rc rs rest i d b r k c old hfb hc hf hr hs hd
  obtain ⟨t, ht, hresult⟩ := exec_result i { s with commands := rs, schedule := .stepMove :: rest }
  obtain ⟨-, -, -, -, -, -, hcpos, hfpos, hsch, -⟩ := commandFrame _ _ _ ht
  have hcommand : step s = .next t := (step_command_of_idle hs hc hr hd).trans ht
  have hstore := step_stepMove_of_idle (hcpos.trans hc) hsch
  refine ⟨_, (run_succ hcommand 1).trans (run_succ hstore 0), ?_⟩
  have hmove : (stepMove { t with schedule := rest }).fb = fbWrite t.fb b r k (shiftByte d old c) := by
    simp only [stepMove, hfpos, hf]
  rw [hmove, fbRead_fbWrite (hresult.fbOk hfb), if_pos ⟨rfl, rfl, rfl⟩]

end Sys2Proof.Machine
end

section
/-!
Many shifts and a whole scroll (`42_animation.md` R171, R174).
-/
namespace Sys2Proof.Machine

/-! ## Shifts one after another -/

theorem shiftedBy_zero (d : Dir) (f : ColIx → Bool) (x : ColIx) : shiftedBy d 0 f x = f x := by
  cases d with
  | left => exact dif_pos x.isLt
  | right => simp only [shiftedBy, Nat.zero_le, if_true, Nat.sub_zero]

/-- One column more. -/
theorem shiftedBy_succ (d : Dir) (n : Nat) (f : ColIx → Bool) (x : ColIx) :
    shiftedBy d 1 (shiftedBy d n f) x = shiftedBy d (n + 1) f x := by
  cases d with
  | left =>
    simp only [shiftedBy]
    split_ifs
    · congr 2; omega
    · omega
    · omega
    · rfl
    · omega
    · rfl
  | right =>
    simp only [shiftedBy]
    split_ifs
    · congr 2; omega
    · omega
    · omega
    · rfl
    · omega
    · rfl

/-- A shift and its opposite lose the pixel that left the row. -/
theorem shiftedBy_right_left (f : ColIx → Bool) (x : ColIx) :
    shiftedBy .right 1 (shiftedBy .left 1 f) x = (decide (x.val ≠ 0) && f x) := by
  simp only [shiftedBy]
  by_cases h : 1 ≤ x.val
  · have hx : x.val - 1 + 1 = x.val := by omega
    simp [h, hx, show x.val ≠ 0 by omega]
  · simp [show x.val = 0 by omega]

theorem shiftedBy_left_right (f : ColIx → Bool) (x : ColIx) :
    shiftedBy .left 1 (shiftedBy .right 1 f) x = (decide (x.val ≠ 119) && f x) := by
  simp only [shiftedBy]
  by_cases h : x.val + 1 < 120
  · simp [h, show x.val ≠ 119 by omega]
  · simp [show x.val = 119 by omega]

theorem wf_iterate_shiftBuffer {m : Memory} (hm : Memory.wf m = true) (d : Dir) (b : BufIx) (n : Nat) :
    Memory.wf ((shiftBuffer d b)^[n] m) = true := by
  induction n with
  | zero => exact hm
  | succ n ih => rw [Function.iterate_succ_apply']; exact wf_shiftBuffer ih d b

theorem pixel_iterate_shiftBuffer {m : Memory} (hm : Memory.wf m = true) (d : Dir) (b : BufIx) (n : Nat) (b' : BufIx)
    (x : ColIx) (r : RowIx) :
    pixel ((shiftBuffer d b)^[n] m) b' x r =
      if b' = b then shiftedBy d n (fun x => pixel m b x r) x else pixel m b' x r := by
  induction n generalizing b' x with
  | zero =>
    rw [Function.iterate_zero_apply, shiftedBy_zero]
    split
    · next h => rw [h]
    · rfl
  | succ n ih =>
    rw [Function.iterate_succ_apply', pixel_shiftBuffer (wf_iterate_shiftBuffer hm d b n), ih]
    have hrow : (fun x => pixel ((shiftBuffer d b)^[n] m) b x r) = shiftedBy d n fun x => pixel m b x r :=
      funext fun x => (ih b x).trans (if_pos rfl)
    rw [hrow, shiftedBy_succ]
    split <;> rfl

/-- Settles O44: the shifts compose as the columns they move. -/
theorem manyShifts : Obligations.ManyShifts := by
  intro m b hm
  have hrow (d : Dir) (r : RowIx) : (fun x => pixel (shiftBuffer d b m) b x r) = shiftedBy d 1 fun x => pixel m b x r :=
    funext fun x => (pixel_shiftBuffer hm d b b r x).trans (if_pos rfl)
  refine ⟨fun d => pixel_iterate_shiftBuffer hm d b, fun x r => ⟨?_, ?_⟩⟩
  · rw [pixel_shiftBuffer (wf_shiftBuffer hm ..), if_pos rfl, hrow, shiftedBy_right_left]
  · rw [pixel_shiftBuffer (wf_shiftBuffer hm ..), if_pos rfl, hrow, shiftedBy_left_right]

/-! ## A scroll from its start to its end -/

/-- The state `n` calls of `step()` after the start of a scroll of `count` pixels, `m` steps a pixel, in `s`. -/
def scrollAfter (s : State) (d : Dir) (m count n : Nat) : State :=
  { s with
    frameCtr := BitVec.ofNat 8 (n % m), pixRem := BitVec.ofNat 8 (count - n / m)
    fb := (shiftBuffer d s.disp)^[n / m] s.fb, animKind := if n / m < count then d.kind else .none }

/-- One more step within the pixel. -/
theorem succ_div_mod_of_lt {m n : Nat} (h : n % m + 1 < m) : (n + 1) / m = n / m ∧ (n + 1) % m = n % m + 1 := by
  have hn := Nat.div_add_mod n m
  exact (Nat.div_mod_unique (by omega)).2 ⟨by omega, h⟩

/-- The last step of the pixel. -/
theorem succ_div_mod_of_eq {m n : Nat} (h : n % m + 1 = m) : (n + 1) / m = n / m + 1 ∧ (n + 1) % m = 0 := by
  have hn := Nat.div_add_mod n m
  exact (Nat.div_mod_unique (by omega)).2 ⟨by rw [Nat.mul_succ]; omega, by omega⟩

theorem toNat_frameCtr_scrollAfter (s : State) (d : Dir) {m : Nat} (hpos : 0 < m) (hm : m < 256) (count n : Nat) :
    (scrollAfter s d m count n).frameCtr.toNat = n % m :=
  (BitVec.toNat_ofNat ..).trans (Nat.mod_eq_of_lt ((Nat.mod_lt n hpos).trans hm))

theorem toNat_pixRem_scrollAfter (s : State) (d : Dir) (m : Nat) {count : Nat} (hcount : count < 256) (n : Nat) :
    (scrollAfter s d m count n).pixRem.toNat = count - n / m :=
  (BitVec.toNat_ofNat ..).trans (Nat.mod_eq_of_lt ((Nat.sub_le ..).trans_lt hcount))

/-- One call of `step()` before the end of the scroll: it paces within a pixel and shifts at its last step. -/
theorem stepAlone_scrollAfter {s : State} (d : Dir) {m count n : Nat} (hm : m = max s.fpp.toNat 1) (hcount : count < 256)
    (hn : n / m < count) : stepAlone (scrollAfter s d m count n) = scrollAfter s d m count (n + 1) := by
  have hfpp := s.fpp.isLt
  have hmod : n % m < m := Nat.mod_lt n (by omega)
  have hkind : (scrollAfter s d m count n).animKind = d.kind := if_pos hn
  have hctr := toNat_frameCtr_scrollAfter s d (m := m) (by omega) (by omega) count n
  have hrem := toNat_pixRem_scrollAfter s d m hcount n
  by_cases hpace : n % m + 1 < s.fpp.toNat
  · obtain ⟨hdiv, hmod'⟩ := succ_div_mod_of_lt (m := m) (n := n) (by omega)
    rw [stepAlone, animStep_of_pacing hkind (by rw [hctr]; exact hpace), hctr]
    simp only [scrollAfter, hdiv, hmod']
  · obtain ⟨hdiv, hmod'⟩ := succ_div_mod_of_eq (m := m) (n := n) (by omega)
    have hne : (scrollAfter s d m count n).pixRem ≠ 0 := fun h => by
      rw [h, show (0 : Byte).toNat = 0 from rfl] at hrem
      omega
    have hrem' : (scrollAfter s d m count n).pixRem - 1 = (scrollAfter s d m count (n + 1)).pixRem := by
      apply BitVec.eq_of_toNat_eq
      rw [toNat_sub_one hne, hrem, toNat_pixRem_scrollAfter s d m hcount, hdiv, Nat.sub_sub]
    have hlast : (scrollAfter s d m count (n + 1)).pixRem = 0 ↔ ¬(n + 1) / m < count := by
      rw [← BitVec.toNat_inj, toNat_pixRem_scrollAfter s d m hcount, Nat.not_lt]
      exact Nat.sub_eq_zero_iff_le
    rw [stepAlone, animStep_of_shifting hkind (by rw [hctr]; exact hpace)]
    simp only [hrem', hlast, ite_not]
    simp only [scrollAfter, hdiv, hmod', Function.iterate_succ_apply']
    rfl

theorem iterate_stepAlone_scrollAfter {s : State} (d : Dir) {m count n : Nat} (hm : m = max s.fpp.toNat 1)
    (hcount : count < 256) (hn : n ≤ count * m) :
    stepAlone^[n] (scrollAfter s d m count 0) = scrollAfter s d m count n := by
  induction n with
  | zero => rfl
  | succ n ih =>
    rw [Function.iterate_succ_apply', ih (Nat.le_of_succ_le hn)]
    exact stepAlone_scrollAfter d hm hcount ((Nat.div_lt_iff_lt_mul (by omega)).2 hn)

/-- A scroll on a free slot leaves the first state of the scroll. -/
theorem scrollCommand_eq_scrollAfter {s : State} (hk : s.animKind = .none) (d : Dir) (fpp : Byte) {count : Byte}
    (hc : count ≠ 0) (m : Nat) :
    scrollCommand d [fpp, count] s = scrollAfter ({ s with fpp := fpp }.answer .ok) d m count.toNat 0 := by
  have hpos : 0 < count.toNat := Nat.pos_of_ne_zero fun h => hc (BitVec.eq_of_toNat_eq h)
  rw [scrollCommand_of_free hk d fpp hc, scrollAfter]
  simp only [Nat.zero_div, Nat.zero_mod, Nat.sub_zero, BitVec.ofNat_toNat, BitVec.setWidth_eq, if_pos hpos,
    Function.iterate_zero_apply]
  rfl

theorem exec_scrollVerb (d : Dir) (buf : Byte) (p : List Byte) (s : State) :
    exec (scrollVerb d buf p) s = .next (scrollCommand d p s) := by cases d <;> rfl

/-- Settles O45: the state after every call is `scrollAfter`, from the loaded slot on. -/
theorem scrollRunsToCompletion : Obligations.ScrollRunsToCompletion := by
  intro s d buf fpp count hfb hk hc
  refine ⟨_, exec_scrollVerb d buf _ s, fun n hn => ?_⟩
  have hfpp := fpp.isLt
  obtain ⟨m, hm⟩ : ∃ m, m = max fpp.toNat 1 := ⟨_, rfl⟩
  rw [← hm] at hn ⊢
  have hend : n / m < count.toNat ↔ n ≠ count.toNat * m := by
    rw [Nat.div_lt_iff_lt_mul (by omega)]; omega
  rw [scrollCommand_eq_scrollAfter hk d fpp hc m,
    iterate_stepAlone_scrollAfter (s := State.answer { s with fpp := fpp } .ok) d hm count.isLt hn]
  refine ⟨?_, toNat_frameCtr_scrollAfter _ d (by omega) (by omega) _ n, toNat_pixRem_scrollAfter _ d m count.isLt n,
    fun b x r => (pixel_iterate_shiftBuffer hfb d s.disp (n / m) b x r).trans ?_⟩
  · simp only [scrollAfter, hend, ite_not]
  · split
    · next hb => rw [hb]
    · rfl

end Sys2Proof.Machine
end

section
/-!
Moves with nothing in between (`20_memory.md` R62): what a number of moves of one agent reaches, and that a run of the
machine whose schedule chooses only them reaches it too.
-/
namespace Sys2Proof.Machine

/-- At most `n` moves `f` lead from `s` to `t`. -/
def ReachesWithin (f : State → State) (n : Nat) (s t : State) : Prop := ∃ k, k ≤ n ∧ f^[k] s = t

namespace ReachesWithin

variable {f : State → State} {n m : Nat} {s t u : State}

theorem refl (f : State → State) (s : State) : ReachesWithin f 0 s s := ⟨0, Nat.le_refl 0, rfl⟩

theorem single (h : f s = t) : ReachesWithin f 1 s t := ⟨1, Nat.le_refl 1, h⟩

theorem mono (h : ReachesWithin f n s t) (hnm : n ≤ m) : ReachesWithin f m s t := by
  obtain ⟨k, hk, hs⟩ := h
  exact ⟨k, hk.trans hnm, hs⟩

theorem trans (hst : ReachesWithin f n s t) (htu : ReachesWithin f m t u) : ReachesWithin f (n + m) s u := by
  obtain ⟨k, hk, rfl⟩ := hst
  obtain ⟨l, hl, rfl⟩ := htu
  exact ⟨k + l, Nat.add_le_add hk hl, by rw [Nat.add_comm, Function.iterate_add_apply]⟩

end ReachesWithin

/-- The choice `c` is a move `f` wherever `P` holds; `f` keeps `P` and neither reads nor writes the schedule. -/
structure MovesBy (c : Choice) (f : State → State) (P : State → Prop) : Prop where
  step     : ∀ s rest, P s → s.schedule = c :: rest → Machine.step s = .next (f { s with schedule := rest })
  schedule : ∀ s sch, f { s with schedule := sch } = { f s with schedule := sch }
  keeps    : ∀ s, P s → P (f s)
  input    : ∀ s sch, P s → P { s with schedule := sch }

theorem MovesBy.run_replicate {c : Choice} {f : State → State} {P : State → Prop} (h : MovesBy c f P) (n : Nat) (s : State)
    (rest : List Choice) (hs : P s) :
    run n { s with schedule := List.replicate n c ++ rest } = .next (f^[n] { s with schedule := rest }) := by
  induction n generalizing s with
  | zero => rfl
  | succ n ih =>
    have hmove : Machine.step { s with schedule := c :: (List.replicate n c ++ rest) } =
        .next { f s with schedule := List.replicate n c ++ rest } :=
      (h.step _ _ (h.input s _ hs) rfl).trans (congrArg _ (h.schedule s _))
    rw [List.replicate_succ, List.cons_append, run_succ hmove, Function.iterate_succ_apply, h.schedule s rest]
    exact ih (f s) (h.keeps s hs)

/-- A run of moves only reaches what the moves reach. -/
theorem MovesBy.exists_run {c : Choice} {f : State → State} {P : State → Prop} (h : MovesBy c f P) {n : Nat} {s t : State}
    {rest : List Choice} (hs : P s) (hreach : ReachesWithin f n { s with schedule := rest } t) :
    ∃ k, k ≤ n ∧ run k { s with schedule := List.replicate k c ++ rest } = .next t := by
  obtain ⟨k, hk, rfl⟩ := hreach
  exact ⟨k, hk, h.run_replicate k s rest hs⟩

/-! ## The schedule is not read by a move -/

theorem commandMoveAt_with_schedule (p : CPos) (s : State) (sch : List Choice) :
    commandMoveAt p { s with schedule := sch } = { commandMoveAt p s with schedule := sch } := by
  cases p with
  | setRow b row bitmap k =>
    simp only [commandMoveAt, setRowMove]
    cases bitmap[k]? with
    | none => rfl
    | some v => dsimp only; split <;> rfl
  | clearBuffer b n =>
    simp only [commandMoveAt, clearBufferMove]
    split <;> rfl
  | drawText b y text cx ci j i t =>
    simp only [commandMoveAt, drawTextMove]
    cases text[ci]? with
    | none => rfl
    | some c =>
      dsimp only
      split_ifs
      · cases t <;> rfl
      all_goals rfl
  | scrollTest d fpp count =>
    simp only [commandMoveAt, scrollTestMove]
    split_ifs <;> rfl
  | showBuffer | scrollFpp | scrollRem | scrollCtr | scrollKind | finish => rfl

theorem commandMove_with_schedule (s : State) (sch : List Choice) :
    commandMove { s with schedule := sch } = { commandMove s with schedule := sch } := by
  cases hp : s.cPos with
  | some p =>
    simp only [commandMove, hp]
    exact commandMoveAt_with_schedule p s sch
  | none => cases hr : s.commands <;> simp only [commandMove, hp, hr]

theorem stepMove_with_schedule (s : State) (sch : List Choice) :
    stepMove { s with schedule := sch } = { stepMove s with schedule := sch } := by
  cases hf : s.fPos with
  | waitFc => cases hfc : s.fc <;> simp [stepMove, hf, stepEnabled, hfc]
  | readKind => cases hk : s.animKind.dir? <;> simp only [stepMove, hf, hk]
  | readFpp => simp only [stepMove, hf]; split <;> rfl
  | clearFc | readCtr | writeCtr | zeroCtr | readDisp | load | store | readRem | writeRem | freeSlot =>
    simp only [stepMove, hf, State.clearFc]

/-- `C` moves at any moment. -/
theorem movesBy_commandMove : MovesBy .commandMove commandMove fun _ => True where
  step s rest _ hs := by simp only [step, act, hs, chooseCommandMove]
  schedule := commandMove_with_schedule
  keeps _ _ := trivial
  input _ _ _ := trivial

/-- `F` moves while no command is in progress (R65), and begins none. -/
theorem movesBy_stepMove : MovesBy .stepMove stepMove fun s => s.cPos = none where
  step _ _ hc hs := step_stepMove_of_idle hc hs
  schedule := stepMove_with_schedule
  keeps s hc := by rw [stepMove_frame]; exact hc
  input _ _ hc := hc

end Sys2Proof.Machine
end

section
/-!
The five verbs but draw-text, move by move (`20_memory.md` R62, `43_dispatcher.md` R191, R200): from the start of each the
moves reach the state of the whole command, which is taken at the state without the record.
-/
namespace Sys2Proof.Machine

/-- What is next in a list whose rest is known. -/
theorem getElem?_of_drop_eq_cons {α : Type} {l vs : List α} {v : α} {k : Nat} (h : l.drop k = v :: vs) :
    l[k]? = some v ∧ l.drop (k + 1) = vs := by
  refine ⟨?_, ?_⟩
  · rw [← Nat.add_zero k, ← List.getElem?_drop, h, List.getElem?_cons_zero]
  · rw [← List.tail_drop, h, List.tail_cons]

/-- The last move of a command: its answer, and the port released. -/
theorem reaches_finish (s : State) (st : Status) :
    ReachesWithin commandMove 1 { s with cPos := some (.finish st) } (s.releasePort.answer st) :=
  .single rfl

theorem reaches_finish_of_wroteFb (s : State) (m : Memory) :
    ReachesWithin commandMove 1 { s with fb := m, cPos := some (.finish .ok) } ({ s.releasePort with fb := m }.done) :=
  .single rfl

/-- set-row writes the rest of its bitmap byte by byte (`40_framebuffer_render.md` R112). -/
theorem reaches_setRow (s : State) (b : BufIx) (row : RowIx) {bitmap vs : List Byte} {k : Nat} (hvs : bitmap.drop k = vs)
    (hk : k + vs.length ≤ 15) :
    ReachesWithin commandMove (vs.length + 1) { s with cPos := some (.setRow b row bitmap k) }
      { s with fb := rowWriteFrom b row k vs s.fb, cPos := some (.finish .ok) } := by
  induction vs generalizing k s with
  | nil =>
    have hend : bitmap[k]? = none := List.getElem?_eq_none (List.drop_eq_nil_iff.1 hvs)
    exact .single (by simp only [commandMove, commandMoveAt, setRowMove, hend, rowWriteFrom])
  | cons v vs ih =>
    obtain ⟨hv, hrest⟩ := getElem?_of_drop_eq_cons hvs
    rw [List.length_cons] at hk ⊢
    have hk15 : k < 15 := by omega
    have hmove : commandMove { s with cPos := some (.setRow b row bitmap k) } =
        { s with fb := fbWrite s.fb b row ⟨k, hk15⟩ v, cPos := some (.setRow b row bitmap (k + 1)) } := by
      simp only [commandMove, commandMoveAt, setRowMove, hv, dif_pos hk15]
    have hgo := ih { s with fb := fbWrite s.fb b row ⟨k, hk15⟩ v } hrest (by omega)
    rw [rowWriteFrom, dif_pos hk15]
    exact ((ReachesWithin.single hmove).trans hgo).mono (by omega)

/-- clear-buffer clears its buffer byte by byte (`40_framebuffer_render.md` R113). -/
theorem reaches_clearFirst (s : State) (b : BufIx) {n : Nat} (hn : n ≤ 105) :
    ReachesWithin commandMove n { s with cPos := some (.clearBuffer b 0) }
      { s with fb := clearFirst b n s.fb, cPos := some (.clearBuffer b n) } := by
  induction n with
  | zero => exact .refl ..
  | succ n ih =>
    have hlt : n < 105 := hn
    refine (ih (Nat.le_of_succ_le hn)).trans (.single ?_)
    simp only [commandMove, commandMoveAt, clearBufferMove, if_pos hlt, clearFirst]

theorem reaches_clearBuffer (s : State) (b : BufIx) :
    ReachesWithin commandMove 106 { s with cPos := some (.clearBuffer b 0) }
      { s with fb := bufferClear b s.fb, cPos := some (.finish .ok) } := by
  refine (reaches_clearFirst s b (Nat.le_refl 105)).trans (.single ?_)
  simp only [commandMove, commandMoveAt, clearBufferMove, Nat.lt_irrefl, if_false, bufferClear]

/-- A scroll tests the slot, and loads it if it is free and there is something to scroll (`42_animation.md` R161). -/
theorem reaches_scroll (s : State) (d : Dir) (fpp count : Byte) :
    ReachesWithin commandMove 6 { s with cPos := some (.scrollTest d fpp count) }
      (scrollCommand d [fpp, count] s.releasePort) := by
  by_cases hk : s.animKind = .none
  · by_cases hc : count = 0
    · subst hc
      have htest : commandMove { s with cPos := some (.scrollTest d fpp 0) } = { s with cPos := some (.finish .ok) } := by
        simp only [commandMove, commandMoveAt, scrollTestMove, hk, ne_eq, not_true_eq_false, if_false, if_true]
      rw [scrollCommand_of_zero (s := s.releasePort) hk]
      exact ((ReachesWithin.single htest).trans (reaches_finish s .ok)).mono (by decide)
    · have htest : commandMove { s with cPos := some (.scrollTest d fpp count) } =
          { s with cPos := some (.scrollFpp d fpp count) } := by
        simp only [commandMove, commandMoveAt, scrollTestMove, hk, ne_eq, not_true_eq_false, if_false, hc]
      have hload : ReachesWithin commandMove 4 { s with cPos := some (.scrollFpp d fpp count) }
          { s with fpp := fpp, pixRem := count, frameCtr := 0, animKind := d.kind, cPos := some (.finish .ok) } :=
        ⟨4, Nat.le_refl 4, rfl⟩
      rw [scrollCommand_of_free (s := s.releasePort) hk d fpp hc]
      exact ((ReachesWithin.single htest).trans hload).trans
        (reaches_finish { s with fpp := fpp, pixRem := count, frameCtr := 0, animKind := d.kind } .ok)
  · have htest : commandMove { s with cPos := some (.scrollTest d fpp count) } =
        { s with cPos := some (.finish s.params.slotBusyStatus) } := by
      simp only [commandMove, commandMoveAt, scrollTestMove, ne_eq, hk, not_false_eq_true, if_true, busyStatus]
    rw [scrollCommand_of_busy (s := s.releasePort) hk]
    exact ((ReachesWithin.single htest).trans (reaches_finish s _)).mono (by decide)

/-- From the start of a command that is no draw-text its moves reach what the whole command leaves. -/
theorem reaches_exec {i : Instr} (hv : i.verb ≠ .drawText) (s : State) :
    ∃ t, exec i s.releasePort = .next t ∧ ReachesWithin commandMove 107 { s with cPos := some (startOf i) } t := by
  have hrejected := (reaches_finish s .reject).mono (show 1 ≤ 107 by decide)
  cases i with
  | setRow buf p =>
    simp only [exec, execSetRow, startOf]
    cases hop : setRowOperands buf p with
    | error => exact ⟨_, rfl, hrejected⟩
    | ok operands =>
      obtain ⟨b, row, bitmap⟩ := operands
      obtain ⟨-, hlen⟩ := setRowOperands_eq_ok hop
      have hwrite := reaches_setRow s b row (bitmap := bitmap) (k := 0) List.drop_zero (by omega)
      exact ⟨_, rfl, (hwrite.trans (reaches_finish_of_wroteFb s _)).mono (by omega)⟩
  | showBuffer buf p =>
    simp only [exec, execShowBuffer, startOf]
    cases bareBufferOperand buf p with
    | error => exact ⟨_, rfl, hrejected⟩
    | ok b => exact ⟨_, rfl, 2, by decide, rfl⟩
  | clearBuffer buf p =>
    simp only [exec, execClearBuffer, startOf]
    cases bareBufferOperand buf p with
    | error => exact ⟨_, rfl, hrejected⟩
    | ok b => exact ⟨_, rfl, (reaches_clearBuffer s b).trans (reaches_finish_of_wroteFb s _)⟩
  | scrollLeft buf p | scrollRight buf p =>
    match p with
    | [fpp, count] => exact ⟨_, rfl, (reaches_scroll s _ fpp count).mono (by decide)⟩
    | [] | [_] | _ :: _ :: _ :: _ => exact ⟨_, rfl, hrejected⟩
  | drawText => exact absurd rfl hv

/-- The start of the record at the port (R191). -/
theorem commandMove_starts {s : State} {r : Record} {rs : List Record} {i : Instr} (hc : s.cPos = none)
    (hr : s.commands = r :: rs) (hd : decodeRecord s.params.verbMap r = some i) :
    commandMove s = { s with cPos := some (startOf i) } := by
  simp only [commandMove, hc, hr, startOfRecord, hd]

/-- With no command in progress, taking the record away is all that releasing the port does. -/
theorem releasePort_of_idle {s : State} {r : Record} {rs : List Record} (hc : s.cPos = none)
    (hr : s.commands = r :: rs) : s.releasePort = { s with commands := rs } := by
  rw [State.releasePort, hr, List.tail_cons, ← hc]

/-- A record whose command reaches its end in `n` moves is carried out by a run of at most one more. -/
theorem exists_run_eq_exec {s : State} {r : Record} {rs : List Record} {rest : List Choice} {i : Instr} {n : Nat}
    (hc : s.cPos = none) (hr : s.commands = r :: rs) (hd : decodeRecord s.params.verbMap r = some i)
    (hreach : ∀ s : State,
      ∃ t, exec i s.releasePort = .next t ∧ ReachesWithin commandMove n { s with cPos := some (startOf i) } t) :
    ∃ k, k ≤ 1 + n ∧ run k { s with schedule := List.replicate k .commandMove ++ rest } =
      exec i { s with commands := rs, schedule := rest } := by
  obtain ⟨t, hexec, hmoves⟩ := hreach { s with schedule := rest }
  have hstart := commandMove_starts (s := { s with schedule := rest }) hc hr hd
  rw [releasePort_of_idle (s := { s with schedule := rest }) hc hr] at hexec
  obtain ⟨k, hk, hrun⟩ := movesBy_commandMove.exists_run (s := s) trivial ((ReachesWithin.single hstart).trans hmoves)
  exact ⟨k, hk, hrun.trans hexec.symm⟩

/-- Settles O29: one move to start, and at most 107 for the longest of the five, clear-buffer. -/
theorem movesEqualWholeCommand : Obligations.MovesEqualWholeCommand :=
  fun _ _ _ _ _ hc hr hd hv => exists_run_eq_exec hc hr hd (reaches_exec hv)

end Sys2Proof.Machine
end

section
/-!
draw-text, move by move (`40_framebuffer_render.md` R111, R114, R117, R119, `43_dispatcher.md` R200): the moves of a pixel,
of a row of a glyph, of a glyph and of a text, each with the most that it takes.
-/
namespace Sys2Proof.Machine

/-- draw-text at the pixel `(i, j)` of character `ci`, with cursor `cx`, nothing loaded, and the framebuffer `m`. -/
def atPixel (s : State) (b : BufIx) (y : Byte) (text : List Byte) (cx : BitVec 16) (ci j i : Nat) (m : Memory) : State :=
  { s with fb := m, cPos := some (.drawText b y text cx ci j i none) }

section character
variable (s : State) (b : BufIx) (y : Byte) {text : List Byte} (cx : BitVec 16) {ci : Nat} {c : Byte} {g : Glyph}
  (hc : text[ci]? = some c) (hg : glyphOf s.params.glyph c = g)
include hc hg

/-- A pixel is loaded and stored, or skipped outside the bounds. -/
theorem reaches_pixel {j i : Nat} (hj : j < g.h.val) (hi : i < g.w.val) (m : Memory) :
    ReachesWithin commandMove 2 (atPixel s b y text cx ci j i m)
      (atPixel s b y text cx ci j (i + 1)
        (putClipped m b (cx.toNat + i) (y.toNat + j) (getpix g.bm.toList 1 i j))) := by
  by_cases h : cx.toNat + i < 120 ∧ y.toNat + j < 7
  · refine ⟨2, Nat.le_refl 2, ?_⟩
    simp only [Function.iterate_succ_apply, Function.iterate_zero_apply, atPixel, commandMove, commandMoveAt, drawTextMove,
      hc, hg, if_pos hj, if_pos hi, dif_pos h, putClipped, setpix]
  · refine ⟨1, by decide, ?_⟩
    simp only [Function.iterate_one, atPixel, commandMove, commandMoveAt, drawTextMove, hc, hg, if_pos hj, if_pos hi,
      dif_neg h, putClipped]

/-- The first `n` pixels of a row of the glyph. -/
theorem reaches_pixels {j n : Nat} (hj : j < g.h.val) (hn : n ≤ g.w.val) (m : Memory) :
    ReachesWithin commandMove (2 * n) (atPixel s b y text cx ci j 0 m)
      (atPixel s b y text cx ci j n (blitRow g.bm.toList 1 0 (0 + j) n b cx.toNat (y.toNat + j) m)) := by
  induction n with
  | zero => exact .refl ..
  | succ n ih =>
    have hrow := reaches_pixel s b y cx hc hg hj hn (blitRow g.bm.toList 1 0 (0 + j) n b cx.toNat (y.toNat + j) m)
    have hsucc : blitRow g.bm.toList 1 0 (0 + j) (n + 1) b cx.toNat (y.toNat + j) m =
        putClipped (blitRow g.bm.toList 1 0 (0 + j) n b cx.toNat (y.toNat + j) m) b (cx.toNat + n) (y.toNat + j)
          (getpix g.bm.toList 1 n j) := by
      simp only [blitRow, List.range_succ, List.foldl_append, List.foldl_cons, List.foldl_nil, Nat.zero_add]
    rw [hsucc]
    exact (ih (Nat.le_of_succ_le hn)).trans hrow

/-- A row of the glyph, at most 8 pixels wide, and the move to the next row. -/
theorem reaches_glyphRow {j : Nat} (hj : j < g.h.val) (m : Memory) :
    ReachesWithin commandMove 17 (atPixel s b y text cx ci j 0 m)
      (atPixel s b y text cx ci (j + 1) 0 (blitRow g.bm.toList 1 0 (0 + j) g.w.val b cx.toNat (y.toNat + j) m)) := by
  have hw := g.w.isLt
  refine ((reaches_pixels s b y cx hc hg hj (Nat.le_refl g.w.val) m).trans (.single ?_)).mono (by omega)
  simp only [atPixel, commandMove, commandMoveAt, drawTextMove, hc, hg, if_pos hj, Nat.lt_irrefl, if_false]

/-- The first `n` rows of the glyph. -/
theorem reaches_glyphRows {n : Nat} (hn : n ≤ g.h.val) (m : Memory) :
    ReachesWithin commandMove (17 * n) (atPixel s b y text cx ci 0 0 m)
      (atPixel s b y text cx ci n 0 (blitRows g.bm.toList 1 0 0 g.w.val n b cx.toNat y.toNat m)) := by
  induction n with
  | zero => exact .refl ..
  | succ n ih =>
    have hrow := reaches_glyphRow s b y cx hc hg hn (blitRows g.bm.toList 1 0 0 g.w.val n b cx.toNat y.toNat m)
    have hsucc : blitRows g.bm.toList 1 0 0 g.w.val (n + 1) b cx.toNat y.toNat m =
        blitRow g.bm.toList 1 0 (0 + n) g.w.val b cx.toNat (y.toNat + n)
          (blitRows g.bm.toList 1 0 0 g.w.val n b cx.toNat y.toNat m) := by
      simp only [blitRows, List.range_succ, List.foldl_append, List.foldl_cons, List.foldl_nil]
    rw [hsucc]
    exact (ih (Nat.le_of_succ_le hn)).trans hrow

/-- A glyph, at most 7 rows high, and the move to the next character. -/
theorem reaches_glyph (m : Memory) :
    ReachesWithin commandMove 120 (atPixel s b y text cx ci 0 0 m)
      (atPixel s b y text (advance cx g) (ci + 1) 0 0 (drawGlyph g b cx y m)) := by
  have hh := g.h.isLt
  refine ((reaches_glyphRows s b y cx hc hg (Nat.le_refl g.h.val) m).trans (.single ?_)).mono (by omega)
  simp only [atPixel, commandMove, commandMoveAt, drawTextMove, hc, hg, Nat.lt_irrefl, if_false, drawGlyph, blit]

end character

/-- The rest of a text, glyph by glyph, and the move past its end (R119). -/
theorem reaches_text (s : State) (b : BufIx) (y : Byte) {text cs : List Byte} {ci : Nat} (hcs : text.drop ci = cs)
    (cx : BitVec 16) (m : Memory) :
    ReachesWithin commandMove (120 * cs.length + 1) (atPixel s b y text cx ci 0 0 m)
      { s with fb := drawTextFrom s.params.glyph b y cx cs m, cPos := some (.finish .ok) } := by
  induction cs generalizing ci cx m with
  | nil =>
    have hend : text[ci]? = none := List.getElem?_eq_none (List.drop_eq_nil_iff.1 hcs)
    exact .single (by simp only [atPixel, commandMove, commandMoveAt, drawTextMove, hend, drawTextFrom])
  | cons c cs ih =>
    obtain ⟨hc, hrest⟩ := getElem?_of_drop_eq_cons hcs
    rw [List.length_cons]
    exact ((reaches_glyph s b y cx hc rfl m).trans (ih hrest _ _)).mono (by omega)

/-- From the start of a draw-text its moves reach what the whole command leaves. -/
theorem reaches_exec_drawText (buf : Byte) (p : List Byte) (s : State) :
    ∃ t, exec (.drawText buf p) s.releasePort = .next t ∧
      ReachesWithin commandMove 3602 { s with cPos := some (startOf (.drawText buf p)) } t := by
  simp only [exec, execDrawText, startOf]
  cases hop : drawTextOperands buf p with
  | error => exact ⟨_, rfl, (reaches_finish s .reject).mono (by decide)⟩
  | ok operands =>
    obtain ⟨b, x, y, text⟩ := operands
    obtain ⟨-, hlen⟩ := drawTextOperands_eq_ok hop
    have hdraw := reaches_text s b y (text := text) (ci := 0) List.drop_zero (x.setWidth 16) s.fb
    exact ⟨_, rfl, (hdraw.trans (reaches_finish_of_wroteFb s _)).mono (by omega)⟩

/-- Settles O30: one move to start, 120 at most for each of at most 30 characters, one past the last, and the answer. -/
theorem movesEqualWholeDrawText : Obligations.MovesEqualWholeDrawText := by
  intro s r rs rest i hc hr hd hv
  cases i with
  | drawText buf p => exact exists_run_eq_exec hc hr hd (reaches_exec_drawText buf p)
  | setRow | showBuffer | clearBuffer | scrollLeft | scrollRight => cases hv

end Sys2Proof.Machine
end

section
/-!
A `STEP`, move by move (`20_memory.md` R62, `42_animation.md` R162, R163, R165 to R167): the moves of a row's shift, of a
buffer's shift and of `step()`, each with the most that it takes.
-/
namespace Sys2Proof.Machine

/-! ## The pixel shift -/

/-- The list is what `next` gives from `x` on, to its end. -/
def isOrbit {α : Type} [DecidableEq α] (next : α → Option α) : α → List α → Bool
  | x, [] => decide (next x = none)
  | x, x' :: xs => decide (next x = some x') && isOrbit next x' xs

/-- `F` takes the bytes of a row in the order of the whole shift. -/
theorem byteOrder_isOrbit (d : Dir) :
    ∃ ks, byteOrder d = firstByte d :: ks ∧ isOrbit (nextByte d) (firstByte d) ks = true ∧ ks.length = 14 := by
  cases d <;> exact ⟨_, rfl, rfl, rfl⟩

/-- `F` takes the rows in the order of the whole shift. -/
theorem rowsAscending_isOrbit :
    ∃ rs, rowsAscending = 0 :: rs ∧ isOrbit rowAfter 0 rs = true ∧ rs.length = 6 := ⟨_, rfl, rfl, rfl⟩

/-- Where `F` is after the last byte of row `r`. -/
def afterRow (d : Dir) (b : BufIx) (r : RowIx) : FPos :=
  match rowAfter r with
  | some r' => .load d b r' (firstByte d) false
  | none => .readRem d

theorem afterStore_of_next {d : Dir} {k k' : ByteIx} (h : nextByte d k = some k') (b : BufIx) (r : RowIx) (t : Byte) :
    afterStore d b r k t = .load d b r k' (carryOf d t) := by
  simp only [afterStore, h]

theorem afterStore_of_last {d : Dir} {k : ByteIx} (h : nextByte d k = none) (b : BufIx) (r : RowIx) (t : Byte) :
    afterStore d b r k t = afterRow d b r := by
  rw [afterStore, h]
  rfl

/-- A byte is loaded and stored. -/
theorem reaches_byte (s : State) (d : Dir) (b : BufIx) (r : RowIx) (k : ByteIx) (c : Bool) :
    ReachesWithin stepMove 2 { s with fPos := .load d b r k c }
      { s with
        fb := fbWrite s.fb b r k (shiftByte d (fbRead s.fb b r k) c)
        fPos := afterStore d b r k (fbRead s.fb b r k) } :=
  ⟨2, Nat.le_refl 2, rfl⟩

/-- The rest of a row, byte by byte (R165, R166). -/
theorem reaches_shiftBytes (s : State) (d : Dir) (b : BufIx) (r : RowIx) {k : ByteIx} {ks : List ByteIx}
    (hks : isOrbit (nextByte d) k ks = true) (c : Bool) :
    ReachesWithin stepMove (2 * (ks.length + 1)) { s with fPos := .load d b r k c }
      { s with fb := shiftBytes d b r (k :: ks) c s.fb, fPos := afterRow d b r } := by
  induction ks generalizing k c s with
  | nil =>
    have hbyte := reaches_byte s d b r k c
    rw [afterStore_of_last (of_decide_eq_true hks)] at hbyte
    exact hbyte
  | cons k' ks ih =>
    rw [isOrbit, Bool.and_eq_true, decide_eq_true_eq] at hks
    obtain ⟨hnext, hrest⟩ := hks
    have hbyte := reaches_byte s d b r k c
    rw [afterStore_of_next hnext] at hbyte
    have hgo := ih { s with fb := fbWrite s.fb b r k (shiftByte d (fbRead s.fb b r k) c) } hrest
      (carryOf d (fbRead s.fb b r k))
    exact (hbyte.trans hgo).mono (by rw [List.length_cons]; omega)

/-- A row. -/
theorem reaches_shiftRow (s : State) (d : Dir) (b : BufIx) (r : RowIx) :
    ReachesWithin stepMove 30 { s with fPos := .load d b r (firstByte d) false }
      { s with fb := shiftRow d b r s.fb, fPos := afterRow d b r } := by
  obtain ⟨ks, horder, horbit, hlen⟩ := byteOrder_isOrbit d
  rw [shiftRow, horder]
  exact (reaches_shiftBytes s d b r horbit false).mono (by omega)

/-- The rest of a buffer, row by row (R167). -/
theorem reaches_shiftRows (s : State) (d : Dir) (b : BufIx) {r : RowIx} {rs : List RowIx}
    (hrs : isOrbit rowAfter r rs = true) :
    ReachesWithin stepMove (30 * (rs.length + 1)) { s with fPos := .load d b r (firstByte d) false }
      { s with fb := (r :: rs).foldl (fun m r => shiftRow d b r m) s.fb, fPos := .readRem d } := by
  induction rs generalizing r s with
  | nil =>
    have hrow := reaches_shiftRow s d b r
    rw [afterRow, of_decide_eq_true hrs] at hrow
    exact hrow
  | cons r' rs ih =>
    rw [isOrbit, Bool.and_eq_true, decide_eq_true_eq] at hrs
    obtain ⟨hnext, hrest⟩ := hrs
    have hrow := reaches_shiftRow s d b r
    rw [afterRow, hnext] at hrow
    exact (hrow.trans (ih { s with fb := shiftRow d b r s.fb } hrest)).mono (by rw [List.length_cons]; omega)

/-- A buffer. -/
theorem reaches_shiftBuffer (s : State) (d : Dir) (b : BufIx) :
    ReachesWithin stepMove 210 { s with fPos := .load d b 0 (firstByte d) false }
      { s with fb := shiftBuffer d b s.fb, fPos := .readRem d } := by
  obtain ⟨rs, hrows, horbit, hlen⟩ := rowsAscending_isOrbit
  rw [shiftBuffer, hrows]
  exact (reaches_shiftRows s d b horbit).mono (by omega)

/-! ## `step()` and `STEP` -/

/-- `F` counts the pixel down, and frees the slot after the last (R163, R168). -/
theorem reaches_countDown (s : State) (d : Dir) (hk : s.animKind = d.kind) :
    ReachesWithin stepMove 3 { s with fPos := .readRem d }
      { s with
        pixRem := s.pixRem - 1, animKind := if s.pixRem - 1 = 0 then .none else d.kind, fPos := .waitFc } := by
  by_cases hlast : s.pixRem - 1 = 0
  · refine ⟨3, Nat.le_refl 3, ?_⟩
    simp only [Function.iterate_succ_apply, Function.iterate_zero_apply, stepMove, if_pos hlast]
  · refine ⟨2, by decide, ?_⟩
    simp only [Function.iterate_succ_apply, Function.iterate_zero_apply, stepMove, if_neg hlast, hk]

/-- From its read of `ANIM_KIND` the moves of `F` reach what `step()` leaves (R163). -/
theorem reaches_animStep (s : State) :
    ReachesWithin stepMove 218 { s with fPos := .readKind } { (animStep s).2 with fPos := .waitFc } := by
  by_cases hk : s.animKind = .none
  · refine ⟨1, by decide, ?_⟩
    simp only [Function.iterate_one, stepMove, AnimKind.dir?_eq_none_iff.2 hk, animStep_of_free hk]
  · obtain ⟨d, hd⟩ := AnimKind.exists_dir hk
    by_cases hp : s.frameCtr.toNat + 1 < s.fpp.toNat
    · refine ⟨4, by decide, ?_⟩
      simp only [Function.iterate_succ_apply, Function.iterate_zero_apply, stepMove, AnimKind.dir?_eq_some_iff.2 hd,
        if_pos hp, animStep_of_pacing hd hp]
    · have hload : ReachesWithin stepMove 5 { s with fPos := .readKind }
          { s with frameCtr := 0, fPos := .load d s.disp 0 (firstByte d) false } := by
        refine ⟨5, Nat.le_refl 5, ?_⟩
        simp only [Function.iterate_succ_apply, Function.iterate_zero_apply, stepMove, AnimKind.dir?_eq_some_iff.2 hd,
          if_neg hp]
      have hshift := reaches_shiftBuffer { s with frameCtr := 0 } d s.disp
      have hcount := reaches_countDown { s with frameCtr := 0, fb := shiftBuffer d s.disp s.fb } d hd
      rw [animStep_of_shifting hd hp]
      exact (hload.trans hshift).trans hcount

theorem animStep_with_schedule (s : State) (sch : List Choice) :
    (animStep { s with schedule := sch }).2 = { (animStep s).2 with schedule := sch } := by
  simp only [animStep]
  cases s.animKind.dir? with
  | none => rfl
  | some d => dsimp only; split_ifs <;> rfl

theorem animStep_fPos (s : State) : (animStep s).2.fPos = s.fPos := by rw [animStep_frame]

theorem with_fPos_of_eq {s : State} {f : FPos} (h : s.fPos = f) : { s with fPos := f } = s := by rw [← h]

/-- Settles O46: two moves for the hand-off of `FC`, and at most 218 for `step()`. -/
theorem movesEqualWholeStep : Obligations.MovesEqualWholeStep := by
  intro s rest hc hf hfc
  have hhandOff : ReachesWithin stepMove 2 { s with schedule := rest }
      { s with fc := false, schedule := rest, fPos := .readKind } := by
    refine ⟨2, Nat.le_refl 2, ?_⟩
    simp only [Function.iterate_succ_apply, Function.iterate_zero_apply, stepMove, hf, stepEnabled, hfc, if_true,
      State.clearFc]
  have hanim := reaches_animStep { s with fc := false, schedule := rest }
  have hwhole : { (animStep { s with fc := false, schedule := rest }).2 with fPos := .waitFc } =
      { takeStep s with schedule := rest } := by
    have hpos : (animStep { s with fc := false, schedule := rest }).2.fPos = .waitFc := (animStep_fPos _).trans hf
    rw [with_fPos_of_eq hpos, takeStep_of_fc hfc]
    exact animStep_with_schedule s.clearFc rest
  rw [hwhole] at hanim
  exact movesBy_stepMove.exists_run hc (hhandOff.trans hanim)

end Sys2Proof.Machine
end
